-- ==== Sys2Proof/Word.lean ====
section
/-! DEFINITION. The word types of the core (spec/00_scope.md R6, R9): 16-bit words for registers, memory
cells and addresses, 8-bit bytes for console characters and trap vectors, 3-bit register selectors. -/

namespace Sys2Proof

/-- A 16-bit word: every register value, memory cell and address (R6, R9). Addition on it is addition
modulo 2^16 (R10). -/
abbrev Word := BitVec 16

/-- An 8-bit value: a console character or byte (R13) and the trap vector (R71). -/
abbrev Byte := BitVec 8

/-- A register selector, "values 0–7 always valid" (R21, R63): selector `i` names Ri. -/
abbrev Reg := Fin 8

end Sys2Proof
end

