-- ==== Sys2Proof/Syntax.lean ====
section
/-! DEFINITION. The instruction terms of the decoder (spec/30_encoding.md R76): one constructor per row of
spec/opcode_table.json, with the fields R76 gives it. Offsets and immediates are the sign-extended 16-bit
patterns, as in R76; RTI and RES keep the raw word. -/

namespace Sys2Proof

/-- One instruction. The docstrings name the format and the handler's rule. -/
inductive Instr where
  /-- ADD, register mode (OPR, R110) -/
  | addR (dr sr1 sr2 : Reg)
  /-- ADD, immediate mode (OPI, R111) -/
  | addI (dr sr1 : Reg) (imm : Word)
  /-- AND, register mode (OPR, R113) -/
  | andR (dr sr1 sr2 : Reg)
  /-- AND, immediate mode (OPI, R114) -/
  | andI (dr sr1 : Reg) (imm : Word)
  /-- NOT (R116) -/
  | notR (dr sr : Reg)
  /-- BR (R131) -/
  | br (n z p : Bool) (off : Word)
  /-- JMP, and RET when the base is R7 (R133) -/
  | jmp (base : Reg)
  /-- JSR, PC-relative (R134) -/
  | jsr (off : Word)
  /-- JSRR, register (R135) -/
  | jsrr (base : Reg)
  /-- LD (PCR, R150) -/
  | ld (dr : Reg) (off : Word)
  /-- LDI (PCR, R151) -/
  | ldi (dr : Reg) (off : Word)
  /-- LDR (BOF, R152) -/
  | ldr (dr base : Reg) (off : Word)
  /-- LEA (PCR, R153) -/
  | lea (dr : Reg) (off : Word)
  /-- ST (PCR, R155) -/
  | st (sr : Reg) (off : Word)
  /-- STI (PCR, R156) -/
  | sti (sr : Reg) (off : Word)
  /-- STR (BOF, R157) -/
  | str (sr base : Reg) (off : Word)
  /-- TRAP (R181) -/
  | trap (vect : Byte)
  /-- RTI, reserved (RSV, R97) -/
  | rti (raw : Word)
  /-- RES, reserved (RSV, R98) -/
  | res (raw : Word)
  deriving DecidableEq, Repr

/-- The 16 opcode tags, a closed enumeration (R62). -/
inductive OpCode where
  | br | add | ld | st | jsr | and | ldr | str | rti | not | ldi | sti | jmp | res | lea | trap
  deriving DecidableEq, Repr

/-- The two reserved tags, as the outcome `Reserved(op)` reports them (R91, R97, R98). -/
inductive ReservedOp where
  | rti
  | res
  deriving DecidableEq, Repr

/-- The opcode tag each instruction belongs to (R62, R79). -/
def Instr.opcode : Instr → OpCode
  | .addR _ _ _ => .add
  | .addI _ _ _ => .add
  | .andR _ _ _ => .and
  | .andI _ _ _ => .and
  | .notR _ _ => .not
  | .br _ _ _ _ => .br
  | .jmp _ => .jmp
  | .jsr _ => .jsr
  | .jsrr _ => .jsr
  | .ld _ _ => .ld
  | .ldi _ _ => .ldi
  | .ldr _ _ _ => .ldr
  | .lea _ _ => .lea
  | .st _ _ => .st
  | .sti _ _ => .sti
  | .str _ _ _ => .str
  | .trap _ => .trap
  | .rti _ => .rti
  | .res _ => .res

end Sys2Proof
end

