-- ==== Sys2Proof/WellFormed.lean ====
section
/-! DEFINITION. Which instruction terms an encoding exists for: each offset or immediate lies in the signed
range of its field (spec/30_encoding.md R66, R67, R68, R70), and the raw word of RTI and RES has that opcode in
bits 15–12 (R62). Register selectors and the trap vector are well-formed by their types. -/

namespace Sys2Proof

/-- The word, read as a signed number, lies in `lo .. hi`. -/
def signedIn (lo hi : Int) (v : Word) : Bool :=
  decide (lo ≤ v.toInt) && decide (v.toInt ≤ hi)

/-- imm5 runs −16..+15 (R66). -/
def fitsImm5 (v : Word) : Bool := signedIn (-16) 15 v

/-- offset6 runs −32..+31 (R68). -/
def fitsOffset6 (v : Word) : Bool := signedIn (-32) 31 v

/-- PCoffset9 runs −256..+255 (R67). -/
def fitsOffset9 (v : Word) : Bool := signedIn (-256) 255 v

/-- PCoffset11 runs −1024..+1023 (R70). -/
def fitsOffset11 (v : Word) : Bool := signedIn (-1024) 1023 v

/-- The instruction has an encoding. -/
def Instr.wf : Instr → Bool
  | .addR _ _ _ => true
  | .addI _ _ imm => fitsImm5 imm
  | .andR _ _ _ => true
  | .andI _ _ imm => fitsImm5 imm
  | .notR _ _ => true
  | .br _ _ _ off => fitsOffset9 off
  | .jmp _ => true
  | .jsr off => fitsOffset11 off
  | .jsrr _ => true
  | .ld _ off => fitsOffset9 off
  | .ldi _ off => fitsOffset9 off
  | .ldr _ _ off => fitsOffset6 off
  | .lea _ off => fitsOffset9 off
  | .st _ off => fitsOffset9 off
  | .sti _ off => fitsOffset9 off
  | .str _ _ off => fitsOffset6 off
  | .trap _ => true
  | .rti raw => raw.extractLsb' 12 4 == 0x8#4
  | .res raw => raw.extractLsb' 12 4 == 0xD#4

end Sys2Proof
end

