-- ==== Sys2Proof/Decode.lean ====
section
/-! DEFINITION. The decoder and the encoder (spec/30_encoding.md): opcode extraction (R61, R62), the field
helpers (R63), the total decode function (R76), the fixed bits and strict mode (R77), the encoder written from
the format tables (R74), the rows of spec/opcode_table.json (R79), and the pseudo-instructions (R81). -/

namespace Sys2Proof

/-- The field `w[lo+n-1 : lo]` (R8). -/
def field (w : Word) (lo n : Nat) : BitVec n := w.extractLsb' lo n

/-- `reg(word, lo) = word[lo+2 : lo]`, a register selector (R63). -/
def regField (w : Word) (lo : Nat) : Reg := (field w lo 3).toFin

/-- `sext_n(f)`: an n-bit two's-complement field as a 16-bit pattern (R11). -/
def sext (n : Nat) (f : BitVec n) : Word := f.signExtend 16

/-- `simm(word, n) = sext_n(word[n-1 : 0])` (R63). -/
def simm (w : Word) (n : Nat) : Word := sext n (field w 0 n)

/-- `bit(word, i)` (R63). -/
def bitAt (w : Word) (i : Nat) : Bool := w.getLsbD i

/-- `OPCODE_OF`, the opcode values 0x0 to 0xF in order (R62). -/
def opcodeOf : Vector OpCode 16 :=
  #v[.br, .add, .ld, .st, .jsr, .and, .ldr, .str, .rti, .not, .ldi, .sti, .jmp, .res, .lea, .trap]

/-- `decode_opcode(word) = OPCODE_OF[word[15:12]]`, total (R61). -/
def decodeOpcode (w : Word) : OpCode := opcodeOf[(field w 12 4).toFin]

/-- The decode function, arm by arm as R76 writes it. -/
def decode (w : Word) : Instr :=
  match decodeOpcode w with
  | .br => .br (bitAt w 11) (bitAt w 10) (bitAt w 9) (simm w 9)
  | .add =>
    if bitAt w 5 then .addI (regField w 9) (regField w 6) (simm w 5)
    else .addR (regField w 9) (regField w 6) (regField w 0)
  | .ld => .ld (regField w 9) (simm w 9)
  | .st => .st (regField w 9) (simm w 9)
  | .jsr => if bitAt w 11 then .jsr (simm w 11) else .jsrr (regField w 6)
  | .and =>
    if bitAt w 5 then .andI (regField w 9) (regField w 6) (simm w 5)
    else .andR (regField w 9) (regField w 6) (regField w 0)
  | .ldr => .ldr (regField w 9) (regField w 6) (simm w 6)
  | .str => .str (regField w 9) (regField w 6) (simm w 6)
  | .rti => .rti w
  | .not => .notR (regField w 9) (regField w 6)
  | .ldi => .ldi (regField w 9) (simm w 9)
  | .sti => .sti (regField w 9) (simm w 9)
  | .jmp => .jmp (regField w 6)
  | .res => .res w
  | .lea => .lea (regField w 9) (simm w 9)
  | .trap => .trap (field w 0 8)

/-- Some `f` bit of the word's format differs from its LC-3 value (R77): OPR 4–3 = 00; NOT 5–0 = 111111;
JMP 11–9 = 000 and 5–0 = 000000; JSRR 10–9 = 00 and 5–0 = 000000; TRAP 11–8 = 0000. The other formats have
none, and RTI and RES are reserved whatever their low bits are. -/
def fixedBitsDiffer (w : Word) : Bool :=
  match decode w with
  | .addR _ _ _ => field w 3 2 != 0
  | .andR _ _ _ => field w 3 2 != 0
  | .notR _ _ => field w 0 6 != 0x3F
  | .jmp _ => field w 9 3 != 0 || field w 0 6 != 0
  | .jsrr _ => field w 9 2 != 0 || field w 0 6 != 0
  | .trap _ => field w 8 4 != 0
  | .addI _ _ _ => false
  | .andI _ _ _ => false
  | .br _ _ _ _ => false
  | .jsr _ => false
  | .ld _ _ => false
  | .ldi _ _ => false
  | .ldr _ _ _ => false
  | .lea _ _ => false
  | .st _ _ => false
  | .sti _ _ => false
  | .str _ _ _ => false
  | .rti _ => false
  | .res _ => false

/-- Why the decoder rejects a word. -/
inductive DecodeReject where
  /-- A fixed bit differs under `STRICT_FIXED_BITS` (R77). -/
  | illegalEncoding (w : Word)
  deriving DecidableEq, Repr

/-- The decoder with the parameter `STRICT_FIXED_BITS` (R77): by default it rejects nothing. -/
def decodeChecked (strict : Bool) (w : Word) : Except DecodeReject Instr :=
  if strict && fixedBitsDiffer w then .error (.illegalEncoding w) else .ok (decode w)

/-! ### The encoder (R74) -/

/-- The 4-bit value of each opcode tag (R62). -/
def OpCode.bits : OpCode → BitVec 4
  | .br => 0x0
  | .add => 0x1
  | .ld => 0x2
  | .st => 0x3
  | .jsr => 0x4
  | .and => 0x5
  | .ldr => 0x6
  | .str => 0x7
  | .rti => 0x8
  | .not => 0x9
  | .ldi => 0xA
  | .sti => 0xB
  | .jmp => 0xC
  | .res => 0xD
  | .lea => 0xE
  | .trap => 0xF

/-- A register selector as its 3-bit field. -/
def regBits (r : Reg) : BitVec 3 := BitVec.ofFin r

/-- The low `n` bits of a word, as the field an offset or immediate is stored in. -/
def lowBits (n : Nat) (v : Word) : BitVec n := v.setWidth n

/-- Format OPR: op, DR, SR1, 0, 00, SR2. -/
def encodeOpr (op : OpCode) (dr sr1 sr2 : Reg) : Word :=
  op.bits ++ regBits dr ++ regBits sr1 ++ (0 : BitVec 1) ++ (0 : BitVec 2) ++ regBits sr2

/-- Format OPI: op, DR, SR1, 1, imm5. -/
def encodeOpi (op : OpCode) (dr sr1 : Reg) (imm : Word) : Word :=
  op.bits ++ regBits dr ++ regBits sr1 ++ (1 : BitVec 1) ++ lowBits 5 imm

/-- Format PCR: op, DR or SR, PCoffset9. -/
def encodePcr (op : OpCode) (r : Reg) (off : Word) : Word :=
  op.bits ++ regBits r ++ lowBits 9 off

/-- Format BOF: op, DR or SR, BaseR, offset6. -/
def encodeBof (op : OpCode) (r base : Reg) (off : Word) : Word :=
  op.bits ++ regBits r ++ regBits base ++ lowBits 6 off

/-- The word of an instruction, with every fixed bit at its LC-3 value (R74). -/
def encode : Instr → Word
  | .addR dr sr1 sr2 => encodeOpr .add dr sr1 sr2
  | .addI dr sr1 imm => encodeOpi .add dr sr1 imm
  | .andR dr sr1 sr2 => encodeOpr .and dr sr1 sr2
  | .andI dr sr1 imm => encodeOpi .and dr sr1 imm
  | .notR dr sr => OpCode.not.bits ++ regBits dr ++ regBits sr ++ (0x3F : BitVec 6)
  | .br n z p off => OpCode.br.bits ++ BitVec.ofBool n ++ BitVec.ofBool z ++ BitVec.ofBool p ++ lowBits 9 off
  | .jmp base => OpCode.jmp.bits ++ (0 : BitVec 3) ++ regBits base ++ (0 : BitVec 6)
  | .jsr off => OpCode.jsr.bits ++ (1 : BitVec 1) ++ lowBits 11 off
  | .jsrr base => OpCode.jsr.bits ++ (0 : BitVec 1) ++ (0 : BitVec 2) ++ regBits base ++ (0 : BitVec 6)
  | .ld dr off => encodePcr .ld dr off
  | .ldi dr off => encodePcr .ldi dr off
  | .ldr dr base off => encodeBof .ldr dr base off
  | .lea dr off => encodePcr .lea dr off
  | .st sr off => encodePcr .st sr off
  | .sti sr off => encodePcr .sti sr off
  | .str sr base off => encodeBof .str sr base off
  | .trap vect => OpCode.trap.bits ++ (0 : BitVec 4) ++ vect
  | .rti raw => raw
  | .res raw => raw

/-! ### The opcode table and the pseudo-instructions -/

/-- The numbers of one row of spec/opcode_table.json; where the row gives no strict pattern, it is the plain
one. -/
structure OpcodeRow where
  pattern : Word
  mask : Word
  strictPattern : Word
  strictMask : Word
  deriving DecidableEq, Repr

/-- The word belongs to the row: `word & mask == match` (spec/INDEX.md). -/
def OpcodeRow.covers (r : OpcodeRow) (w : Word) : Bool := w &&& r.mask == r.pattern

/-- The word also has the row's fixed bits: `word & strict_mask == strict_match`. -/
def OpcodeRow.coversStrictly (r : OpcodeRow) (w : Word) : Bool := w &&& r.strictMask == r.strictPattern

/-- The row of an instruction's form, with the table's own numbers. -/
def opcodeRow : Instr → OpcodeRow
  | .addR _ _ _ => ⟨0x1000, 0xF020, 0x1000, 0xF038⟩
  | .addI _ _ _ => ⟨0x1020, 0xF020, 0x1020, 0xF020⟩
  | .andR _ _ _ => ⟨0x5000, 0xF020, 0x5000, 0xF038⟩
  | .andI _ _ _ => ⟨0x5020, 0xF020, 0x5020, 0xF020⟩
  | .notR _ _ => ⟨0x9000, 0xF000, 0x903F, 0xF03F⟩
  | .br _ _ _ _ => ⟨0x0000, 0xF000, 0x0000, 0xF000⟩
  | .jmp _ => ⟨0xC000, 0xF000, 0xC000, 0xFE3F⟩
  | .jsr _ => ⟨0x4800, 0xF800, 0x4800, 0xF800⟩
  | .jsrr _ => ⟨0x4000, 0xF800, 0x4000, 0xFE3F⟩
  | .ld _ _ => ⟨0x2000, 0xF000, 0x2000, 0xF000⟩
  | .ldi _ _ => ⟨0xA000, 0xF000, 0xA000, 0xF000⟩
  | .ldr _ _ _ => ⟨0x6000, 0xF000, 0x6000, 0xF000⟩
  | .lea _ _ => ⟨0xE000, 0xF000, 0xE000, 0xF000⟩
  | .st _ _ => ⟨0x3000, 0xF000, 0x3000, 0xF000⟩
  | .sti _ _ => ⟨0xB000, 0xF000, 0xB000, 0xF000⟩
  | .str _ _ _ => ⟨0x7000, 0xF000, 0x7000, 0xF000⟩
  | .trap _ => ⟨0xF000, 0xF000, 0xF000, 0xFF00⟩
  | .rti _ => ⟨0x8000, 0xF000, 0x8000, 0xF000⟩
  | .res _ => ⟨0xD000, 0xF000, 0xD000, 0xF000⟩

/-- The 19 rows, in the table's order. -/
def opcodeTable : List OpcodeRow :=
  [opcodeRow (.addR 0 0 0), opcodeRow (.addI 0 0 0), opcodeRow (.andR 0 0 0), opcodeRow (.andI 0 0 0)] ++
  [opcodeRow (.notR 0 0), opcodeRow (.br false false false 0), opcodeRow (.jmp 0), opcodeRow (.jsr 0)] ++
  [opcodeRow (.jsrr 0), opcodeRow (.ld 0 0), opcodeRow (.ldi 0 0), opcodeRow (.ldr 0 0 0)] ++
  [opcodeRow (.lea 0 0), opcodeRow (.st 0 0), opcodeRow (.sti 0 0), opcodeRow (.str 0 0 0)] ++
  [opcodeRow (.trap 0), opcodeRow (.rti 0), opcodeRow (.res 0)]

/-- The pseudo-instructions of R81 (`input` is the spec's IN). -/
inductive Pseudo where
  | ret | nop | getc | out | puts | input | putsp | halt
  deriving DecidableEq, Repr

/-- The expansion of a pseudo-instruction (R81; the vectors are those of R182). -/
def Pseudo.expand : Pseudo → Instr
  | .ret => .jmp 7
  | .nop => .br false false false 0
  | .getc => .trap 0x20
  | .out => .trap 0x21
  | .puts => .trap 0x22
  | .input => .trap 0x23
  | .putsp => .trap 0x24
  | .halt => .trap 0x25

/-- The offset an assembler stores for a label: `label − (address of instruction + 1)` (R80). -/
def labelOffset (label addr : Word) : Word := label - (addr + 1)

/-! ### The host's view of the decoder -/

/-- The one word of a table row given as `nbits` bits, its bits above them 0. -/
def tableWord (nbits w : Nat) : Word := BitVec.ofNat 16 (w % 2 ^ nbits)

/-- What the decoder reads from an instruction given as `nbits` bits. Every instruction is exactly one 16-bit
word (R60), so more bits than that are no instruction. -/
def decodeTableWord (nbits w : Nat) : Option Instr :=
  if nbits ≤ 16 then some (decode (tableWord nbits w)) else none

end Sys2Proof
end

