-- ==== Sys2Proof/Config.lean ====
section
/-! DEFINITION. The parameters the source leaves open (spec/00_scope.md R7), the launch inputs
(spec/10_state.md R31, spec/70_reset_and_hazards.md R230) and the one free value: what the environment
answers a device-region read with (spec/20_memory.md R45). -/

namespace Sys2Proof

/-- What the fetch loop does after `Reserved(op)` (R93, D9). -/
inductive ReservedPolicy where
  | ignore
  | fault
  deriving DecidableEq, Repr

/-- What the fetch loop does after `UnknownTrap(v)` (R93, D12). -/
inductive UnknownTrapPolicy where
  | fault
  | ignore
  deriving DecidableEq, Repr

/-- When JSRR reads its base register (R135, D6). -/
inductive JsrrOrder where
  | linkFirst
  | baseFirst
  deriving DecidableEq, Repr

/-- The addresses `first` to `last`, both included. -/
structure AddrRange where
  first : Word
  last : Word
  deriving DecidableEq, Repr

/-- The parameters of R7 that are not launch inputs. Plain data: `deviceRegion` lists ranges (every set of
addresses is such a list) and `inEcho` lists the characters whose echo is not the default one. -/
structure Params where
  /-- `RESERVED_POLICY` -/
  reservedPolicy : ReservedPolicy
  /-- `TRAP_SAVES_LINK` -/
  trapSavesLink : Bool
  /-- `UNKNOWN_TRAP_POLICY` -/
  unknownTrapPolicy : UnknownTrapPolicy
  /-- `JSRR_ORDER` -/
  jsrrOrder : JsrrOrder
  /-- `STRICT_FIXED_BITS` -/
  strictFixedBits : Bool
  /-- `DEVICE_REGION` (R45) -/
  deviceRegion : List AddrRange
  /-- `KBSR_ADDR`: no rule but `Params.wf` depends on it (R220) -/
  kbsrAddr : Word
  /-- `KBDR_ADDR`: no rule but `Params.wf` depends on it (R220) -/
  kbdrAddr : Word
  /-- `IN_PROMPT` (R190) -/
  inPrompt : List Byte
  /-- `IN_ECHO` (R190): the characters whose echo is not the character itself -/
  inEcho : List (Byte × List Byte)
  /-- `HALT_MESSAGE` (R188) -/
  haltMessage : List Byte
  deriving DecidableEq, Repr

/-- The defaults of R7. `IN_PROMPT` and `HALT_MESSAGE` have none there ("unspecified (any)"): DESIGN CHOICE,
both empty here (notes/assumptions/3.md). -/
def Params.default : Params where
  reservedPolicy := .ignore
  trapSavesLink := true
  unknownTrapPolicy := .fault
  jsrrOrder := .linkFirst
  strictFixedBits := false
  deviceRegion := [⟨0xFE00, 0xFFFF⟩]
  kbsrAddr := 0xFE00
  kbdrAddr := 0xFE02
  inPrompt := []
  inEcho := []
  haltMessage := []

/-- The condition register's value: exactly one of N, Z, P (R20, R24). -/
inductive Cond where
  | n
  | z
  | p
  deriving DecidableEq, Repr

/-- The launch inputs of R7 (`ENTRY`, `INIT_REGS`, `INIT_COND`, `INIT_MEM`), which the loader supplies. This is
no part of State: `initMem` may be a function here. -/
structure LaunchInput where
  entry : Word
  initRegs : Vector Word 8
  initCond : Cond
  initMem : Word → Word

/-- The value the environment answers the `k`-th unscripted device-region read with (`draw16()`, R45): a free
value, nothing constrains it (notes/assumptions/5.md). -/
opaque Config.freeWord : Nat → Word

end Sys2Proof
end

