-- ==== Sys2Proof/Machine/Memory.lean ====
section
/-! DEFINITION. The memory outside the device region (spec/20_memory.md R40): 65536 cells of 16 bits, index =
address, as a list of (address, cell) pairs in one canonical form. The cell is a whole word, because "bytes have
no addresses" (notes/assumptions/1.md). -/

namespace Sys2Proof.Machine

/-- The listed cells, addresses strictly rising, none equal to what an unlisted address reads as. -/
abbrev Mem := List (Nat × Word)

/-- What an unlisted address reads as. The spec fixes no such value; DESIGN CHOICE
(notes/assumptions/2.md). -/
def Mem.unlisted : Word := 0

/-- The cell with index `a`. -/
def Mem.lookup : Mem → Nat → Word
  | [], _ => Mem.unlisted
  | (k, v) :: m, a => if a = k then v else Mem.lookup m a

/-- Lists the cell `(k, v)` in front, unless it holds what an unlisted address reads as. -/
def Mem.cons (k : Nat) (v : Word) (m : Mem) : Mem :=
  if v = Mem.unlisted then m else (k, v) :: m

/-- Replaces the cell with index `a`, keeping the canonical form. -/
def Mem.update : Mem → Nat → Word → Mem
  | [], a, v => Mem.cons a v []
  | (k, x) :: m, a, v =>
    if a < k then Mem.cons a v ((k, x) :: m)
    else if a = k then Mem.cons a v m
    else (k, x) :: Mem.update m a v

/-- `Memory[a]` (R40). -/
def Mem.read (m : Mem) (a : Word) : Word := m.lookup a.toNat

/-- `Memory[a] <- v` (R40). -/
def Mem.write (m : Mem) (a v : Word) : Mem := m.update a.toNat v

/-- The canonical form, of the cells from index `lo` on. -/
def Mem.wfFrom : Nat → Mem → Bool
  | _, [] => true
  | lo, (k, v) :: m => decide (lo ≤ k) && decide (k < 65536) && decide (v ≠ Mem.unlisted) && Mem.wfFrom (k + 1) m

/-- The canonical form. -/
def Mem.wf (m : Mem) : Bool := Mem.wfFrom 0 m

/-- The canonical memory that holds `f a` at every address `a` for which `keep a`, and lists nothing else. -/
def Mem.ofFunction (keep : Word → Bool) (f : Word → Word) : Mem :=
  (List.range 65536).filterMap fun a =>
    if keep (BitVec.ofNat 16 a) && f (BitVec.ofNat 16 a) != Mem.unlisted then some (a, f (BitVec.ofNat 16 a))
    else none

end Sys2Proof.Machine
end

