-- ==== Sys2Proof/Machine/State.lean ====
section
/-! DEFINITION. The machine's state as plain data: the register file (spec/10_state.md R20), memory (R40), the
trap blocked on input (R30), the recorded outcome and fault (spec/40_dispatch.md R91, R93), the console and
device channels (spec/44_trap.md R192, spec/20_memory.md R45), and the parameters (spec/00_scope.md R7). -/

namespace Sys2Proof.Machine

/-- The reasons a run stops with a fault (R210). All are raised where the spec names them, so a stop is safe.
A meaning records its reason in State (the state stays visible, R211); `step` answers it from then on. -/
inductive Fault where
  /-- Raised by `execute` under `STRICT_FIXED_BITS` for a word whose fixed bits differ (R77). Safe. -/
  | illegalEncoding (w : Word)
  /-- Raised by the fetch loop for RTI and RES when `RESERVED_POLICY = fault` (R93). Safe. -/
  | reservedOpcode (op : ReservedOp)
  /-- Raised by the fetch loop for TRAP with an unknown vector when `UNKNOWN_TRAP_POLICY = fault` (R93). Safe. -/
  | unknownTrap (v : Byte)
  /-- Raised by PUTS and PUTSP after 65536 words without a terminator (R187). Safe. -/
  | unterminatedString
  deriving DecidableEq, Repr

/-- The refusals. Every instruction has its meaning, so no arm raises one. -/
inductive Refusal where
  /-- Raised by an arm of `exec` whose instruction has no meaning yet; none is left. Safe. -/
  | notModelled (mnemonic : String)
  deriving DecidableEq, Repr

/-- The outcome port of the block (R91). `completed` is the spec's `Continue`. -/
inductive CoreOutcome where
  | completed
  | halt
  | reserved (op : ReservedOp)
  | unknownTrap (v : Byte)
  | fault (reason : Fault)
  deriving DecidableEq, Repr

/-- The two services that read a character (R191). -/
inductive InputService where
  | getc
  | input
  deriving DecidableEq, Repr

/-- What the fetch loop is doing (R93) and the trap that is blocked on input (R30, R191). -/
inductive RunStatus where
  /-- The next step fetches an instruction. -/
  | running
  /-- A TRAP waits in `ConsoleIn()` for a character. -/
  | held (svc : InputService)
  /-- Stopped after HALT: the state is final. -/
  | halted
  /-- Stopped on a fault, which is recorded: the state is not final. -/
  | faulted (reason : Fault)
  deriving DecidableEq, Repr

/-- What the core gives the environment. -/
inductive OutEvent where
  /-- `ConsoleOut(b)` (R13, R192) -/
  | console (b : Byte)
  /-- A `MemWrite` inside `DEVICE_REGION`: "the environment receives (a, v)" (R45) -/
  | device (a v : Word)
  deriving DecidableEq, Repr

/-- The whole machine. -/
structure State where
  /-- R0 to R7 (R20, R21). -/
  regs : Vector Word 8
  /-- The program counter (R23). -/
  pc : Word
  /-- The condition-flag register (R24). -/
  cond : Cond
  /-- The cells outside the device region (R40). -/
  mem : Mem
  /-- The fetch loop and the blocked trap (R30, R93). -/
  run : RunStatus
  /-- What the core last returned on its outcome port (R91); none at launch and while a trap is held. -/
  outcome : Option CoreOutcome
  /-- The characters the environment has supplied and the core has not read yet, oldest first (R191, R192). -/
  consoleIn : List Byte
  /-- Everything given to the environment so far, oldest first (R45, R192). -/
  output : List OutEvent
  /-- The answers the environment has set out for the next device-region reads, oldest first (R45). -/
  deviceIn : List Word
  /-- The model's own field: how many device-region reads were answered by the free value `Config.freeWord`. -/
  drawCount : Nat
  /-- The parameters of R7: no step changes them. -/
  params : Params
  deriving DecidableEq, Repr

/-- The machine at launch with nothing loaded. The spec leaves every register's value to the loader (R31, R230);
PRESUMED, the LC-3 family's customary PC 0x3000, COND Z and zeroed registers (notes/assumptions/4.md). The
parameters take their defaults (R7). -/
def State.reset : State where
  regs := #v[0, 0, 0, 0, 0, 0, 0, 0]
  pc := 0x3000
  cond := .z
  mem := []
  run := .running
  outcome := none
  consoleIn := []
  output := []
  deviceIn := []
  drawCount := 0
  params := Params.default

end Sys2Proof.Machine
end

