-- ==== Sys2Proof/Machine/Ops.lean ====
section
/-! DEFINITION. The shared operations: registers (spec/10_state.md R21–R23), memory with the device region
(spec/20_memory.md R45), the console (spec/44_trap.md R192), fetch (spec/40_dispatch.md R92), the outcome port
and the fetch loop's reaction to it (R91, R93), and the entry into a trap (spec/60_exceptions.md R215). -/

namespace Sys2Proof

/-- The address lies in `DEVICE_REGION` (R45). -/
def Params.inDevice (p : Params) (a : Word) : Bool :=
  p.deviceRegion.any fun r => decide (r.first ≤ a) && decide (a ≤ r.last)

/-- `IN_ECHO(c)`, by default the single byte `c` (R190). -/
def Params.echo (p : Params) (c : Byte) : List Byte := (p.inEcho.lookup c).getD [c]

/-- The keyboard words lie in the device region (R45). No rule depends on it. -/
def Params.wf (p : Params) : Bool := p.inDevice p.kbsrAddr && p.inDevice p.kbdrAddr

/-- `zext_16(f)` of an 8-bit character (R12). -/
def zext16 (c : Byte) : Word := c.setWidth 16

/-- Bits 7–0 of a word (R43). -/
def lowByte (v : Word) : Byte := field v 0 8

/-- Bits 15–8 of a word (R43). -/
def highByte (v : Word) : Byte := field v 8 8

/-- R7, the link register (R22). -/
def linkReg : Reg := 7

end Sys2Proof

namespace Sys2Proof.Machine

/-! ### Registers -/

/-- `x[i]` (R13). -/
def State.reg (s : State) (r : Reg) : Word := s.regs[r]

/-- `x[i] <- v` (R13). No register is hardwired (R21). -/
def State.setReg (s : State) (r : Reg) (v : Word) : State := { s with regs := s.regs.set r v }

/-- `pc <- t` (R13). -/
def State.setPc (s : State) (t : Word) : State := { s with pc := t }

/-! ### Memory and the device region -/

/-- `draw16()`: the environment's answer to a device-region read (R45). It is the next answer set out in
`deviceIn`; where none is, a free value. -/
def State.draw (s : State) : Word × State :=
  match s.deviceIn with
  | v :: rest => (v, { s with deviceIn := rest })
  | [] => (Config.freeWord s.drawCount, { s with drawCount := s.drawCount + 1 })

/-- `MemRead(a, 1)` (R45). -/
def State.memRead (s : State) (a : Word) : Word × State :=
  if s.params.inDevice a then s.draw else (s.mem.read a, s)

/-- `MemWrite(a, 1, v)` (R45). -/
def State.memWrite (s : State) (a v : Word) : State :=
  if s.params.inDevice a then { s with output := s.output ++ [.device a v] }
  else { s with mem := s.mem.write a v }

/-! ### The console -/

/-- `for b in bs: ConsoleOut(b)` (R192). -/
def State.emit (s : State) (bs : List Byte) : State :=
  { s with output := s.output ++ bs.map .console }

/-- The environment supplies one more character (R191). No instruction does this. -/
def State.supplyChar (s : State) (c : Byte) : State := { s with consoleIn := s.consoleIn ++ [c] }

/-- The characters not read yet are `chars`. -/
def State.setConsoleIn (s : State) (chars : List Byte) : State := { s with consoleIn := chars }

/-! ### Outcomes -/

/-- The fetch loop's state becomes `r`. -/
def State.setRun (s : State) (r : RunStatus) : State := { s with run := r }

/-- The trap waits for a character, without an outcome (R191). -/
def State.hold (s : State) (svc : InputService) : State := { s with run := .held svc, outcome := none }

/-- `return <Outcome>`: the handler ends and the core returns the outcome (R91). -/
def State.finish (s : State) (o : CoreOutcome) : State := { s with outcome := some o }

/-- `raise Fault(reason)` (R13). -/
def State.raise (s : State) (reason : Fault) : State := s.finish (.fault reason)

/-- The reason the fetch loop stops on an outcome, if it does: the reactions of R93 under the two policies. -/
def stopStatus (p : Params) : CoreOutcome → Option RunStatus
  | .completed => none
  | .halt => some .halted
  | .reserved op =>
    match p.reservedPolicy with
    | .ignore => none
    | .fault => some (.faulted (.reservedOpcode op))
  | .unknownTrap v =>
    match p.unknownTrapPolicy with
    | .ignore => none
    | .fault => some (.faulted (.unknownTrap v))
  | .fault reason => some (.faulted reason)

/-- The fetch loop's reaction to the outcome just returned (R93). While a trap is held there is none. -/
def State.react (s : State) : State :=
  match s.outcome with
  | none => s
  | some o =>
    match stopStatus s.params o with
    | none => s
    | some r => s.setRun r

/-! ### Fetch and trap entry -/

/-- `w <- MemRead(PC, 1); pc <- PC + 1` (R92). -/
def State.fetch (s : State) : Word × State :=
  ((s.memRead s.pc).1, (s.memRead s.pc).2.setPc (s.pc + 1))

/-- Trap entry writes the return address, the post-increment PC, into R7 when `TRAP_SAVES_LINK` (R181, R215). -/
def State.saveLink (s : State) : State :=
  if s.params.trapSavesLink then s.setReg linkReg s.pc else s

end Sys2Proof.Machine
end

