-- ==== Sys2Proof/Machine/Flags.lean ====
section
/-! DEFINITION. The condition flag: its update (spec/10_state.md R25), its 3-bit storage (R26) and BR's match
(spec/42_control.md R132). -/

namespace Sys2Proof

/-- The one-hot storage of COND (R26). -/
def Cond.bits : Cond → BitVec 3
  | .n => 0b100
  | .z => 0b010
  | .p => 0b001

end Sys2Proof

namespace Sys2Proof.Machine

/-- The flag a written value gives (R25). -/
def condOf (v : Word) : Cond :=
  if bitAt v 15 then .n else if v = 0 then .z else .p

/-- `setcc(v)` (R25). -/
def State.setcc (s : State) (v : Word) : State := { s with cond := condOf v }

/-- A flag-setting handler writes DR first and then applies `setcc` to the value written (R95). -/
def State.writeResult (s : State) (dr : Reg) (v : Word) : State := (s.setReg dr v).setcc v

/-- BR's condition match: a requested flag equals COND (R132). -/
def brMatches (n z p : Bool) : Cond → Bool
  | .n => n
  | .z => z
  | .p => p

end Sys2Proof.Machine
end

