-- ==== Sys2Proof/Machine/Operands.lean ====
section
/-! DEFINITION. The operand forms (spec/30_encoding.md R75) and effective addresses (spec/43_load_store.md R154).
Every sum is modulo 2^16. The PC is the post-increment PC (spec/40_dispatch.md R92). -/

namespace Sys2Proof.Machine

/-- A PC-relative address: `PC + off`. -/
def State.pcRelative (s : State) (off : Word) : Word := s.pc + off

/-- A base+offset address: `x[BaseR] + off`. -/
def State.baseOffset (s : State) (base : Reg) (off : Word) : Word := s.reg base + off

/-- An indirect address: `MemRead(PC + off, 1)`, with the state after that read. -/
def State.indirect (s : State) (off : Word) : Word × State := s.memRead (s.pcRelative off)

end Sys2Proof.Machine
end

