-- ==== Sys2Proof/Machine/Control.lean ====
section
/-! DEFINITION. The control transfers BR, JMP, JSR and JSRR (spec/42_control.md). -/

namespace Sys2Proof.Machine

/-- BR (R131). -/
def execBr (n z p : Bool) (off : Word) (s : State) : Host.Outcome State Fault Refusal :=
  .next ((if brMatches n z p s.cond then s.setPc (s.pcRelative off) else s).finish .completed)

/-- JMP, and RET when the base is R7 (R133). -/
def execJmp (base : Reg) (s : State) : Host.Outcome State Fault Refusal :=
  .next ((s.setPc (s.reg base)).finish .completed)

/-- JSR (R134). -/
def execJsr (off : Word) (s : State) : Host.Outcome State Fault Refusal :=
  .next (((s.setReg linkReg s.pc).setPc (s.pcRelative off)).finish .completed)

/-- JSRR: `JSRR_ORDER` decides whether BaseR is read after or before the link write (R135). -/
def execJsrr (base : Reg) (s : State) : Host.Outcome State Fault Refusal :=
  .next (match s.params.jsrrOrder with
    | .linkFirst => ((s.setReg linkReg s.pc).setPc ((s.setReg linkReg s.pc).reg base)).finish .completed
    | .baseFirst => ((s.setReg linkReg s.pc).setPc (s.reg base)).finish .completed)

end Sys2Proof.Machine
end

