-- ==== Sys2Proof/Machine/LoadStore.lean ====
section
/-! DEFINITION. The loads, LEA and the stores (spec/43_load_store.md). -/

namespace Sys2Proof.Machine

/-- The shared end of a load: `v <- MemRead(ea, 1); x[DR] <- v; setcc(v); return Continue`. -/
def State.loadFrom (s : State) (dr : Reg) (ea : Word) : State :=
  ((s.memRead ea).2.writeResult dr (s.memRead ea).1).finish .completed

/-- The shared end of a store: `MemWrite(ea, 1, v); return Continue`. -/
def State.storeTo (s : State) (ea v : Word) : State := (s.memWrite ea v).finish .completed

/-- LD (R150). -/
def execLd (dr : Reg) (off : Word) (s : State) : Host.Outcome State Fault Refusal :=
  .next (s.loadFrom dr (s.pcRelative off))

/-- LDI: the pointer is read first, then the value (R151). -/
def execLdi (dr : Reg) (off : Word) (s : State) : Host.Outcome State Fault Refusal :=
  .next ((s.indirect off).2.loadFrom dr (s.indirect off).1)

/-- LDR (R152). -/
def execLdr (dr base : Reg) (off : Word) (s : State) : Host.Outcome State Fault Refusal :=
  .next (s.loadFrom dr (s.baseOffset base off))

/-- LEA: the address itself; memory is not read (R153). -/
def execLea (dr : Reg) (off : Word) (s : State) : Host.Outcome State Fault Refusal :=
  .next ((s.writeResult dr (s.pcRelative off)).finish .completed)

/-- ST (R155). -/
def execSt (sr : Reg) (off : Word) (s : State) : Host.Outcome State Fault Refusal :=
  .next (s.storeTo (s.pcRelative off) (s.reg sr))

/-- STI: one read, the pointer, and then one write (R156). -/
def execSti (sr : Reg) (off : Word) (s : State) : Host.Outcome State Fault Refusal :=
  .next ((s.indirect off).2.storeTo (s.indirect off).1 (s.reg sr))

/-- STR (R157). -/
def execStr (sr base : Reg) (off : Word) (s : State) : Host.Outcome State Fault Refusal :=
  .next (s.storeTo (s.baseOffset base off) (s.reg sr))

end Sys2Proof.Machine
end

