-- ==== Sys2Proof/Machine/Operate.lean ====
section
/-! DEFINITION. The operate instructions ADD, AND and NOT (spec/41_operate.md). -/

namespace Sys2Proof.Machine

/-- ADD, register mode (R110). -/
def execAddR (dr sr1 sr2 : Reg) (s : State) : Host.Outcome State Fault Refusal :=
  .next ((s.writeResult dr (s.reg sr1 + s.reg sr2)).finish .completed)

/-- ADD, immediate mode (R111). -/
def execAddI (dr sr1 : Reg) (imm : Word) (s : State) : Host.Outcome State Fault Refusal :=
  .next ((s.writeResult dr (s.reg sr1 + imm)).finish .completed)

/-- AND, register mode (R113). -/
def execAndR (dr sr1 sr2 : Reg) (s : State) : Host.Outcome State Fault Refusal :=
  .next ((s.writeResult dr (s.reg sr1 &&& s.reg sr2)).finish .completed)

/-- AND, immediate mode (R114). -/
def execAndI (dr sr1 : Reg) (imm : Word) (s : State) : Host.Outcome State Fault Refusal :=
  .next ((s.writeResult dr (s.reg sr1 &&& imm)).finish .completed)

/-- NOT: all 16 bits complemented (R116). -/
def execNotR (dr sr : Reg) (s : State) : Host.Outcome State Fault Refusal :=
  .next ((s.writeResult dr (~~~(s.reg sr))).finish .completed)

end Sys2Proof.Machine
end

