-- ==== Sys2Proof/Machine/Reserved.lean ====
section
/-! DEFINITION. The reserved opcodes RTI and RES (spec/40_dispatch.md R97, R98): no state is changed, and the
outcome says so; the fetch loop applies `RESERVED_POLICY` (R93). -/

namespace Sys2Proof.Machine

/-- RTI (R97). Bits 11–0 are ignored. -/
def execRti (_raw : Word) (s : State) : Host.Outcome State Fault Refusal :=
  .next (s.finish (.reserved .rti))

/-- RES (R98). Bits 11–0 are ignored. -/
def execRes (_raw : Word) (s : State) : Host.Outcome State Fault Refusal :=
  .next (s.finish (.reserved .res))

end Sys2Proof.Machine
end

