-- ==== Sys2Proof/Machine/Trap.lean ====
section
/-! DEFINITION. TRAP and its six services, built into the core (spec/44_trap.md). The link is written once, at
trap entry (R181, R215, D10): every service starts from the state after that write. -/

namespace Sys2Proof.Machine

/-! ### Character input: GETC and IN -/

/-- What a service outputs after it has read `c`: GETC does not echo (R183), IN outputs `IN_ECHO(c)` (R190). -/
def echoBytes (p : Params) (c : Byte) : InputService → List Byte
  | .getc => []
  | .input => p.echo c

/-- The end of an input service once its character `c` has come: the echo, and then `x[0] <- zext_16(c)`
(R183, R190). -/
def State.finishInput (s : State) (svc : InputService) (c : Byte) : State :=
  ((s.emit (echoBytes s.params c svc)).setReg 0 (zext16 c)).finish .completed

/-- `ConsoleIn()` and the rest of the service. With no character supplied the trap is held, without an outcome
(R191; notes/assumptions/7.md). -/
def State.awaitInput (s : State) (svc : InputService) : State :=
  match s.consoleIn with
  | [] => s.hold svc
  | c :: rest => (s.setConsoleIn rest).finishInput svc c

/-- GETC (R183). -/
def State.trapGetc (s : State) : State := s.awaitInput .getc

/-- IN: the prompt is output before the wait (R190). -/
def State.trapIn (s : State) : State := (s.emit s.params.inPrompt).awaitInput .input

/-! ### Output: OUT, PUTS, PUTSP and HALT -/

/-- OUT (R184). -/
def State.trapOut (s : State) : State :=
  (s.emit [lowByte (s.reg 0)]).finish .completed

/-- The bytes PUTS outputs for one word: its low byte (R185). -/
def putsBytes (v : Word) : List Byte := [lowByte v]

/-- The bytes PUTSP outputs for one word: the low byte, then the high byte if it is not 0 (R186). -/
def putspBytes (v : Word) : List Byte :=
  if highByte v = 0 then [lowByte v] else [lowByte v, highByte v]

/-- The loop of PUTS and PUTSP from address `a`, with `n` words left of the 65536 it may read (R185–R187). -/
def State.stringLoop (bytes : Word → List Byte) : Nat → Word → State → State
  | 0, _, s => s.raise .unterminatedString
  | n + 1, a, s =>
    if (s.memRead a).1 = 0 then (s.memRead a).2.finish .completed
    else State.stringLoop bytes n (a + 1) ((s.memRead a).2.emit (bytes (s.memRead a).1))

/-- PUTS (R185). -/
def State.trapPuts (s : State) : State := State.stringLoop putsBytes 65536 (s.reg 0) s

/-- PUTSP (R186). -/
def State.trapPutsp (s : State) : State := State.stringLoop putspBytes 65536 (s.reg 0) s

/-- HALT: the message, then the outcome `Halt` (R188). -/
def State.trapHalt (s : State) : State := (s.emit s.params.haltMessage).finish .halt

/-- A vector that names no service: nothing is changed beside the link (R189). -/
def State.trapUnknown (s : State) (v : Byte) : State := s.finish (.unknownTrap v)

/-! ### The instruction -/

/-- The service of each vector (R182). -/
def State.trapService (s : State) (v : Byte) : State :=
  if v = 0x20 then s.trapGetc
  else if v = 0x21 then s.trapOut
  else if v = 0x22 then s.trapPuts
  else if v = 0x23 then s.trapIn
  else if v = 0x24 then s.trapPutsp
  else if v = 0x25 then s.trapHalt
  else s.trapUnknown v

/-- TRAP: the link first and then the service (R181). The PC is not changed by any service. -/
def execTrap (vect : Byte) (s : State) : Host.Outcome State Fault Refusal :=
  .next (s.saveLink.trapService vect)

/-- What a step does while a trap is held on input: with a character it completes the service, without one
nothing changes (R191). -/
def State.resume (s : State) (svc : InputService) : State :=
  match s.consoleIn with
  | [] => s
  | _ :: _ => (s.setRun .running).awaitInput svc

end Sys2Proof.Machine
end

