-- ==== Sys2Proof/Machine/Dispatch.lean ====
section
/-! DEFINITION. The dispatch table (spec/40_dispatch.md R90): exactly one handler for each instruction. -/

namespace Sys2Proof.Machine

/-- The handler of an instruction, from a state whose PC is already the post-increment value (R92, R96). -/
def exec (i : Instr) (s : State) : Host.Outcome State Fault Refusal :=
  match i with
  | .addR dr sr1 sr2 => Sys2Proof.Machine.execAddR dr sr1 sr2 s
  | .addI dr sr1 imm => Sys2Proof.Machine.execAddI dr sr1 imm s
  | .andR dr sr1 sr2 => Sys2Proof.Machine.execAndR dr sr1 sr2 s
  | .andI dr sr1 imm => Sys2Proof.Machine.execAndI dr sr1 imm s
  | .notR dr sr => Sys2Proof.Machine.execNotR dr sr s
  | .br n z p off => Sys2Proof.Machine.execBr n z p off s
  | .jmp base => Sys2Proof.Machine.execJmp base s
  | .jsr off => Sys2Proof.Machine.execJsr off s
  | .jsrr base => Sys2Proof.Machine.execJsrr base s
  | .ld dr off => Sys2Proof.Machine.execLd dr off s
  | .ldi dr off => Sys2Proof.Machine.execLdi dr off s
  | .ldr dr base off => Sys2Proof.Machine.execLdr dr base off s
  | .lea dr off => Sys2Proof.Machine.execLea dr off s
  | .st sr off => Sys2Proof.Machine.execSt sr off s
  | .sti sr off => Sys2Proof.Machine.execSti sr off s
  | .str sr base off => Sys2Proof.Machine.execStr sr base off s
  | .trap vect => Sys2Proof.Machine.execTrap vect s
  | .rti raw => Sys2Proof.Machine.execRti raw s
  | .res raw => Sys2Proof.Machine.execRes raw s

end Sys2Proof.Machine
end

