-- ==== Sys2Proof/Machine/Execute.lean ====
section
/-! DEFINITION. The block's single entry point (spec/40_dispatch.md R90): one fetched word is decoded, checked
under strict mode before the handler (R77, R212), and given to its handler. -/

namespace Sys2Proof.Machine

/-- `Execute(word, S)` (R5, R90). The outcome is in the next state's `outcome`. -/
def execute (w : Word) (s : State) : Host.Outcome State Fault Refusal :=
  match decodeChecked s.params.strictFixedBits w with
  | .error (.illegalEncoding w') => .next (s.raise (.illegalEncoding w'))
  | .ok i => exec i s

/-- The fetch loop's reaction to what `execute` answers (R93). -/
def reactTo : Host.Outcome State Fault Refusal → Host.Outcome State Fault Refusal
  | .next s => .next s.react
  | .fault f => .fault f
  | .refused r => .refused r

/-- The state in which the fetch loop is running and has recorded no outcome, if it was stopped or held. -/
def State.released (s : State) : State :=
  if s.run = .running then s else { s with run := .running, outcome := none }

/-- Places a word where the fetch reads it: in the cell at the PC, or as the environment's next answer when
the PC is in the device region (R45, R92). -/
def State.placeFetched (s : State) (w : Word) : State :=
  if s.params.inDevice s.pc then { s with deviceIn := w :: s.deviceIn }
  else { s with mem := s.mem.write s.pc w }

end Sys2Proof.Machine
end

