-- ==== Sys2Proof/Machine/Step.lean ====
section
/-! DEFINITION. One step of the machine: the fetch loop of spec/40_dispatch.md R92 and R93, once. -/

namespace Sys2Proof.Machine

/-- One step. A running machine fetches, executes and reacts (R92, R93). A held one goes on with its service
when a character is there (R191). A halted one is final and stays as it is; a faulted one answers its recorded
fault (R93). -/
def step (s : State) : Host.Outcome State Fault Refusal :=
  match s.run with
  | .running => reactTo (execute s.fetch.1 s.fetch.2)
  | .held svc => .next (s.resume svc)
  | .halted => .next s
  | .faulted reason => .fault reason

/-- The state with the instruction stored where `step` fetches next; a stopped or held machine is set running. -/
def State.withFetchWord (s : State) (nbits w : Nat) : State :=
  s.released.placeFetched (tableWord nbits w)

end Sys2Proof.Machine
end

