-- ==== Sys2Proof/Machine/Launch.lean ====
section
/-! DEFINITION. What the loader hands the core (spec/10_state.md R31, spec/70_reset_and_hazards.md R230, R232):
the launch state for any parameters and launch inputs. The loader is outside the block (R4). -/

namespace Sys2Proof.Machine

/-- The launch state of R230: PC, registers, COND and memory from the launch inputs; no outcome, no fault, no
output. `consoleIn` and `deviceIn` are as the environment supplies. -/
def State.launch (p : Params) (l : LaunchInput) (consoleIn : List Byte) (deviceIn : List Word) : State where
  regs := l.initRegs
  pc := l.entry
  cond := l.initCond
  mem := Mem.ofFunction (fun a => !p.inDevice a) l.initMem
  run := .running
  outcome := none
  consoleIn := consoleIn
  output := []
  deviceIn := deviceIn
  drawCount := 0
  params := p

/-- Places the words of a program image at an origin (R232), outside the device region, which is no storage
(R45). -/
def State.loadImage : Word → List Word → State → State
  | _, [], s => s
  | a, w :: ws, s =>
    State.loadImage (a + 1) ws (if s.params.inDevice a then s else { s with mem := s.mem.write a w })

end Sys2Proof.Machine
end

