-- ==== Sys2Proof/Safety.lean ====
section
/-! DEFINITION. The terms claims are stated in: the state invariant, runs and their end
(spec/70_reset_and_hazards.md R234), the reads of the memory port as a relation, and the frames: what an
instruction leaves unchanged. -/

namespace Sys2Proof.Machine

/-! ### The invariant -/

/-- The recorded outcome is one after which the fetch loop is as `run` says (R91, R93): running with no outcome
or one it goes on from, held without an outcome, halted after `Halt`, or stopped on the fault the policies make
of it. -/
def State.OutcomeAgrees (s : State) : Prop :=
  match s.run with
  | .running => ∀ o, s.outcome = some o → stopStatus s.params o = none
  | .held _ => s.outcome = none
  | .halted => s.outcome = some .halt
  | .faulted reason => ∃ o, s.outcome = some o ∧ stopStatus s.params o = some (.faulted reason)

/-- Every listed cell lies outside the device region, which is no storage (R45). -/
def State.MemOutsideDevice (s : State) : Prop :=
  ∀ k v, (k, v) ∈ s.mem → s.params.inDevice (BitVec.ofNat 16 k) = false

/-- A trap held on input wrote its link before it began to wait (R181, R191). -/
def State.HeldTrapSavedLink (s : State) : Prop :=
  ∀ svc, s.run = .held svc → s.params.trapSavesLink = true → s.reg 7 = s.pc

/-- The invariant of the machine. -/
structure State.Inv (s : State) : Prop where
  memCanonical : s.mem.wf = true
  memOutsideDevice : s.MemOutsideDevice
  outcomeAgrees : s.OutcomeAgrees
  heldTrapSavedLink : s.HeldTrapSavedLink

/-! ### Runs -/

/-- Some number of steps leads from one state to the other. -/
inductive Reaches : State → State → Prop where
  | refl (s : State) : Reaches s s
  | tail {s t u : State} : Reaches s t → step t = .next u → Reaches s u

/-- A run ends when the core has returned `Halt`, and only then (R234). -/
def State.Final (s : State) : Prop := s.run = .halted

/-- No state the run comes to has recorded a fault. -/
def State.SafeRun (s : State) : Prop := ∀ t, Reaches s t → ∀ reason, t.run ≠ .faulted reason

/-- The console bytes output so far, in order (R192). -/
def State.consoleOutput (s : State) : List Byte :=
  s.output.filterMap fun
    | .console b => some b
    | .device _ _ => none

/-! ### Reads as a relation -/

/-- `MemRead(a, 1)` gives `v` and leaves `s'` (R45): a cell outside the device region, and inside it the
environment's next answer or, where none is set out, a free value (where the answer comes from is the model's choice,
notes/assumptions/5.md). -/
def ReadGives (s : State) (a v : Word) (s' : State) : Prop :=
  (s.params.inDevice a = false ∧ v = s.mem.read a ∧ s' = s) ∨
  (s.params.inDevice a = true ∧ ∃ rest, s.deviceIn = v :: rest ∧ s' = { s with deviceIn := rest }) ∨
  (s.params.inDevice a = true ∧ s.deviceIn = [] ∧ v = Config.freeWord s.drawCount ∧
    s' = { s with drawCount := s.drawCount + 1 })

/-- Reading consecutive addresses from `a`, wrapping at the top, gives the words `ws`, none of them 0x0000, and
leaves `s'` (R185–R187). -/
inductive WordsRead : State → Word → List Word → State → Prop where
  | nil (s : State) (a : Word) : WordsRead s a [] s
  | cons {s s1 s2 : State} {a v : Word} {ws : List Word} :
      ReadGives s a v s1 → v ≠ 0 → WordsRead s1 (a + 1) ws s2 → WordsRead s a (v :: ws) s2

/-! ### Frames -/

/-- The flag `c` reflects the value `v` (R25). -/
structure CondReflects (v : Word) (c : Cond) : Prop where
  negative : v.getLsbD 15 = true → c = .n
  zero : v.getLsbD 15 = false → v = 0 → c = .z
  positive : v.getLsbD 15 = false → v ≠ 0 → c = .p

/-- Every register not listed is unchanged. -/
def SameRegsExcept (changed : List Reg) (s t : State) : Prop := ∀ r, r ∉ changed → t.reg r = s.reg r

/-- Every cell of memory reads as before. -/
def SameCells (s t : State) : Prop := ∀ a, t.mem.read a = s.mem.read a

/-- The fetch loop, the input and output channels and the parameters are unchanged. -/
structure SameChannels (s t : State) : Prop where
  run : t.run = s.run
  consoleIn : t.consoleIn = s.consoleIn
  output : t.output = s.output
  deviceIn : t.deviceIn = s.deviceIn
  drawCount : t.drawCount = s.drawCount
  params : t.params = s.params

/-- A flag-setting instruction wrote `v` to `dr` and completed; all else is unchanged. -/
structure ResultWritten (dr : Reg) (v : Word) (s t : State) : Prop where
  result : t.reg dr = v
  regs : SameRegsExcept [dr] s t
  cond : CondReflects v t.cond
  pc : t.pc = s.pc
  cells : SameCells s t
  channels : SameChannels s t
  outcome : t.outcome = some .completed

/-- A control transfer left the PC at `target` and completed; but for the registers listed all else is
unchanged. -/
structure MovedTo (target : Word) (changed : List Reg) (s t : State) : Prop where
  pc : t.pc = target
  regs : SameRegsExcept changed s t
  cond : t.cond = s.cond
  cells : SameCells s t
  channels : SameChannels s t
  outcome : t.outcome = some .completed

/-- A store of `v` at `a` completed (R45): the one cell outside the device region, an event inside it; all else is
unchanged. -/
structure StoredAt (a v : Word) (s t : State) : Prop where
  written : s.params.inDevice a = false → t.mem.read a = v ∧ t.output = s.output
  given : s.params.inDevice a = true → t.mem.read a = s.mem.read a ∧ t.output = s.output ++ [.device a v]
  otherCells : ∀ b, b ≠ a → t.mem.read b = s.mem.read b
  regs : SameRegsExcept [] s t
  cond : t.cond = s.cond
  pc : t.pc = s.pc
  run : t.run = s.run
  consoleIn : t.consoleIn = s.consoleIn
  deviceIn : t.deviceIn = s.deviceIn
  drawCount : t.drawCount = s.drawCount
  params : t.params = s.params
  outcome : t.outcome = some .completed

/-- A trap did its service, or the part of it before the wait for a character: R7 is the link under
`TRAP_SAVES_LINK` and `bytes` are output in order; but for the registers listed, the inputs and the outcome all else
is unchanged. -/
structure ServiceDone (changed : List Reg) (bytes : List Byte) (s t : State) : Prop where
  link : t.reg 7 = if s.params.trapSavesLink = true then s.pc else s.reg 7
  regs : SameRegsExcept (7 :: changed) s t
  output : t.output = s.output ++ bytes.map .console
  cond : t.cond = s.cond
  pc : t.pc = s.pc
  cells : SameCells s t
  run : t.run = s.run
  params : t.params = s.params

/-- The inputs are unchanged: no character is read and no device-region read is answered. -/
structure SameInputs (s t : State) : Prop where
  consoleIn : t.consoleIn = s.consoleIn
  deviceIn : t.deviceIn = s.deviceIn
  drawCount : t.drawCount = s.drawCount

/-- The two states differ at most in COND. -/
structure AgreeButCond (s t : State) : Prop where
  regs : t.regs = s.regs
  pc : t.pc = s.pc
  mem : t.mem = s.mem
  run : t.run = s.run
  outcome : t.outcome = s.outcome
  consoleIn : t.consoleIn = s.consoleIn
  output : t.output = s.output
  deviceIn : t.deviceIn = s.deviceIn
  drawCount : t.drawCount = s.drawCount
  params : t.params = s.params

/-- The two states differ at most in memory and in what device-region reads are answered with. -/
structure AgreeButMemory (s t : State) : Prop where
  regs : t.regs = s.regs
  pc : t.pc = s.pc
  cond : t.cond = s.cond
  run : t.run = s.run
  outcome : t.outcome = s.outcome
  consoleIn : t.consoleIn = s.consoleIn
  output : t.output = s.output
  params : t.params = s.params

/-! ### What an instruction may write (the tables of R21 and R24) and how words are classed -/

/-- The destination of a flag-setting instruction (R24); the other instructions have none. -/
def flagDest : Instr → Option Reg
  | .addR dr _ _ => some dr
  | .addI dr _ _ => some dr
  | .andR dr _ _ => some dr
  | .andI dr _ _ => some dr
  | .notR dr _ => some dr
  | .ld dr _ => some dr
  | .ldi dr _ => some dr
  | .ldr dr _ _ => some dr
  | .lea dr _ => some dr
  | .br _ _ _ _ => none
  | .jmp _ => none
  | .jsr _ => none
  | .jsrr _ => none
  | .st _ _ => none
  | .sti _ _ => none
  | .str _ _ _ => none
  | .trap _ => none
  | .rti _ => none
  | .res _ => none

/-- The general registers an instruction writes, by the table of R21. -/
def regWrites : Instr → List Reg
  | .addR dr _ _ => [dr]
  | .addI dr _ _ => [dr]
  | .andR dr _ _ => [dr]
  | .andI dr _ _ => [dr]
  | .notR dr _ => [dr]
  | .ld dr _ => [dr]
  | .ldi dr _ => [dr]
  | .ldr dr _ _ => [dr]
  | .lea dr _ => [dr]
  | .br _ _ _ _ => []
  | .jmp _ => []
  | .jsr _ => [7]
  | .jsrr _ => [7]
  | .st _ _ => []
  | .sti _ _ => []
  | .str _ _ _ => []
  | .trap v => if v = 0x20 ∨ v = 0x23 then [7, 0] else [7]
  | .rti _ => []
  | .res _ => []

/-- The instruction accesses memory beside its fetch (R41). -/
def accessesMemory : Instr → Bool
  | .ld _ _ => true
  | .ldi _ _ => true
  | .ldr _ _ _ => true
  | .st _ _ => true
  | .sti _ _ => true
  | .str _ _ _ => true
  | .trap v => v == 0x22 || v == 0x24
  | .addR _ _ _ => false
  | .addI _ _ _ => false
  | .andR _ _ _ => false
  | .andI _ _ _ => false
  | .notR _ _ => false
  | .br _ _ _ _ => false
  | .jmp _ => false
  | .jsr _ => false
  | .jsrr _ => false
  | .lea _ _ => false
  | .rti _ => false
  | .res _ => false

/-- The opcode tag of a reserved opcode. -/
def reservedTag : ReservedOp → OpCode
  | .rti => .rti
  | .res => .res

/-- The bits that no field of the instruction names (R77), RTI and RES apart, whose term keeps the word. -/
def unnamedBits : Instr → Word
  | .addR _ _ _ => 0x0018
  | .andR _ _ _ => 0x0018
  | .notR _ _ => 0x003F
  | .jmp _ => 0x0E3F
  | .jsrr _ => 0x063F
  | .trap _ => 0x0F00
  | .addI _ _ _ => 0
  | .andI _ _ _ => 0
  | .br _ _ _ _ => 0
  | .jsr _ => 0
  | .ld _ _ => 0
  | .ldi _ _ => 0
  | .ldr _ _ _ => 0
  | .lea _ _ => 0
  | .st _ _ => 0
  | .sti _ _ => 0
  | .str _ _ _ => 0
  | .rti _ => 0
  | .res _ => 0

/-- The word is of format OPR, NOT, JMP, JSRR or TRAP and its `f` bits differ from the LC-3 values, as R77 lists
them. -/
def StrictMismatch (w : Word) : Prop :=
  ((w.extractLsb' 12 4 = 0x1 ∨ w.extractLsb' 12 4 = 0x5) ∧ w.getLsbD 5 = false ∧ w.extractLsb' 3 2 ≠ 0) ∨
  (w.extractLsb' 12 4 = 0x9 ∧ w.extractLsb' 0 6 ≠ 0x3F) ∨
  (w.extractLsb' 12 4 = 0xC ∧ (w.extractLsb' 9 3 ≠ 0 ∨ w.extractLsb' 0 6 ≠ 0)) ∨
  (w.extractLsb' 12 4 = 0x4 ∧ w.getLsbD 11 = false ∧ (w.extractLsb' 9 2 ≠ 0 ∨ w.extractLsb' 0 6 ≠ 0)) ∨
  (w.extractLsb' 12 4 = 0xF ∧ w.extractLsb' 8 4 ≠ 0)

/-- Strict mode rejects the word before its handler: the outcome is `Fault(IllegalEncoding(w))` and all else is
unchanged (R77). -/
def RejectedStrictly (w : Word) : Prop :=
  ∀ s : State, s.params.strictFixedBits = true →
    execute w s = .next { s with outcome := some (.fault (.illegalEncoding w)) }

end Sys2Proof.Machine
end

