-- ==== Sys2Proof/Certificates/Slice0/Obligations.lean ====
section
/-! DEFINITION. The statements for the provers. Each docstring names the rule of spec/ it formalises. -/

open Sys2Proof Sys2Proof.Machine

/-! ### Encoding -/

/-- Words written out bit by bit from R74, one for each of the 19 rows, decode to the instructions they stand
for. -/
def Obligations.SampleWordsDecode : Prop :=
  decode 0b0001_011_001_0_00_010 = .addR 3 1 2 ∧
  decode 0b0001_010_001_1_11101 = .addI 2 1 0xFFFD ∧
  decode 0b0101_100_101_0_00_110 = .andR 4 5 6 ∧
  decode 0b0101_101_001_1_10000 = .andI 5 1 0xFFF0 ∧
  decode 0b1001_001_010_111111 = .notR 1 2 ∧
  decode 0b0000_0_1_1_000000101 = .br false true true 5 ∧
  decode 0b1100_000_111_000000 = .jmp 7 ∧
  decode 0b0100_1_11111111111 = .jsr 0xFFFF ∧
  decode 0b0100_0_00_011_000000 = .jsrr 3 ∧
  decode 0b0010_001_000000101 = .ld 1 5 ∧
  decode 0b1010_011_000000010 = .ldi 3 2 ∧
  decode 0b0110_100_101_111111 = .ldr 4 5 0xFFFF ∧
  decode 0b1110_000_111111111 = .lea 0 0xFFFF ∧
  decode 0b0011_001_000000011 = .st 1 3 ∧
  decode 0b1011_010_100000000 = .sti 2 0xFF00 ∧
  decode 0b0111_011_110_100000 = .str 3 6 0xFFE0 ∧
  decode 0b1111_0000_00100101 = .trap 0x25 ∧
  decode 0b1000_000000000001 = .rti 0x8001 ∧
  decode 0b1101_000100100011 = .res 0xD123

/-- R11: an n-bit field with bit n−1 set is ORed with `0xFFFF << n`, otherwise left unchanged, for the widths in
use. -/
def Obligations.SignExtensionByRule : Prop :=
  ∀ n : Nat, n = 5 ∨ n = 6 ∨ n = 9 ∨ n = 11 → ∀ f : BitVec n,
    sext n f = if f.getLsbD (n - 1) then f.setWidth 16 ||| (0xFFFF#16 <<< n) else f.setWidth 16

/-- R62: the mapping from bits 15–12 to the 16 tags, each with its value, total over 0–15. -/
def Obligations.OpcodeValues : Prop :=
  (∀ (w : Word) (op : OpCode), decodeOpcode w = op ↔ w.extractLsb' 12 4 = op.bits) ∧
  (OpCode.br.bits = 0x0 ∧ OpCode.add.bits = 0x1 ∧ OpCode.ld.bits = 0x2 ∧ OpCode.st.bits = 0x3) ∧
  (OpCode.jsr.bits = 0x4 ∧ OpCode.and.bits = 0x5 ∧ OpCode.ldr.bits = 0x6 ∧ OpCode.str.bits = 0x7) ∧
  (OpCode.rti.bits = 0x8 ∧ OpCode.not.bits = 0x9 ∧ OpCode.ldi.bits = 0xA ∧ OpCode.sti.bits = 0xB) ∧
  (OpCode.jmp.bits = 0xC ∧ OpCode.res.bits = 0xD ∧ OpCode.lea.bits = 0xE ∧ OpCode.trap.bits = 0xF) ∧
  ∀ w : Word, (decode w).opcode = decodeOpcode w

/-- Decoding the encoding of a well-formed instruction gives it back, with every operand at every value its
encoding admits (R74, R76). -/
def Obligations.DecodeEncodeRoundTrip : Prop :=
  ∀ i : Instr, i.wf = true → decode (encode i) = i

/-- A word whose fixed bits have their LC-3 values is the encoding of what it decodes to (R74, R76). -/
def Obligations.EncodeDecodeRestoresWord : Prop :=
  ∀ w : Word, fixedBitsDiffer w = false → encode (decode w) = w

/-- Every word decodes to a well-formed instruction (R66–R70, R76). -/
def Obligations.DecodedIsWellFormed : Prop :=
  ∀ w : Word, (decode w).wf = true

/-- Of the 19 rows of spec/opcode_table.json exactly one covers a word, the one of the instruction it decodes to,
and the row's strict numbers say whether the fixed bits differ. -/
def Obligations.OneTableRowPerWord : Prop :=
  ∀ w : Word, (opcodeTable.filter fun r => r.covers w) = [opcodeRow (decode w)] ∧
    ((opcodeRow (decode w)).coversStrictly w = true ↔ ¬ StrictMismatch w)

/-- R77: bits no field names are ignored by default; under `STRICT_FIXED_BITS` a word whose `f` bits differ gives
`Fault(IllegalEncoding(w))` before its handler, with the state unchanged; RTI and RES are reserved whatever their
low bits are. -/
def Obligations.FixedBitsPolicy : Prop :=
  (∀ w j : Word, decode (w ^^^ (j &&& unnamedBits (decode w))) = decode w) ∧
  (∀ (w w' : Word) (s : State), w.extractLsb' 12 4 = w'.extractLsb' 12 4 →
    w.extractLsb' 12 4 = 0x8 ∨ w.extractLsb' 12 4 = 0xD → execute w s = execute w' s) ∧
  (∀ (w : Word) (s : State), s.params.strictFixedBits = false → execute w s = exec (decode w) s) ∧
  (∀ w : Word, StrictMismatch w → RejectedStrictly w) ∧
  (∀ (w : Word) (s : State), ¬ StrictMismatch w → execute w s = exec (decode w) s)

/-- R81: each pseudo-instruction's expansion has the word the table gives. -/
def Obligations.PseudoInstructionWords : Prop :=
  encode Pseudo.ret.expand = 0xC1C0 ∧ encode Pseudo.nop.expand = 0x0000 ∧
  encode Pseudo.getc.expand = 0xF020 ∧ encode Pseudo.out.expand = 0xF021 ∧
  encode Pseudo.puts.expand = 0xF022 ∧ encode Pseudo.input.expand = 0xF023 ∧
  encode Pseudo.putsp.expand = 0xF024 ∧ encode Pseudo.halt.expand = 0xF025 ∧
  Pseudo.ret.expand = .jmp 7 ∧ Pseudo.nop.expand = .br false false false 0 ∧
  Pseudo.getc.expand = .trap 0x20 ∧ Pseudo.out.expand = .trap 0x21 ∧ Pseudo.puts.expand = .trap 0x22 ∧
  Pseudo.input.expand = .trap 0x23 ∧ Pseudo.putsp.expand = .trap 0x24 ∧ Pseudo.halt.expand = .trap 0x25

/-- R136: with bit 11 alone toggled, JSR uses bits 10–0 as the offset and JSRR bits 8–6 as the base; the link is
the same post-increment PC in both. -/
def Obligations.JsrModeBitToggle : Prop :=
  ∀ w : Word, w &&& 0xF800 = 0x4000 →
    decode w = .jsrr (regField w 6) ∧
    decode (w ||| 0x0800) = .jsr (sext 11 (w.extractLsb' 0 11)) ∧
    ∀ s : State, ∃ t u, exec (decode w) s = .next t ∧ exec (decode (w ||| 0x0800)) s = .next u ∧
      t.reg 7 = s.pc ∧ u.reg 7 = s.pc ∧ u.pc = s.pc + sext 11 (w.extractLsb' 0 11) ∧
      (regField w 6 ≠ 7 → t.pc = s.reg (regField w 6))

/-! ### Flags -/

/-- R25: `setcc(v)` sets N, Z or P by the sign bit and zero of the 16-bit value, and nothing else. -/
def Obligations.FlagUpdate : Prop :=
  ∀ (s : State) (v : Word), CondReflects v (s.setcc v).cond ∧ { s.setcc v with cond := s.cond } = s

/-- R26: COND is stored one-hot, N = 0b100, Z = 0b010, P = 0b001. -/
def Obligations.CondStoredOneHot : Prop :=
  Cond.n.bits = 0b100 ∧ Cond.z.bits = 0b010 ∧ Cond.p.bits = 0b001 ∧
  ∀ c : Cond, c.bits ≠ 0b000 ∧ c.bits ≠ 0b011 ∧ c.bits ≠ 0b101 ∧ c.bits ≠ 0b110 ∧ c.bits ≠ 0b111

/-- R132: BR's match is true when any requested flag equals COND; with the one-hot encoding it is
`(w[11:9] & COND) != 0`. -/
def Obligations.BrConditionMatch : Prop :=
  ∀ (w : Word) (c : Cond),
    (brMatches (w.getLsbD 11) (w.getLsbD 10) (w.getLsbD 9) c = true ↔
      (w.getLsbD 11 = true ∧ c = .n) ∨ (w.getLsbD 10 = true ∧ c = .z) ∨ (w.getLsbD 9 = true ∧ c = .p)) ∧
    (brMatches (w.getLsbD 11) (w.getLsbD 10) (w.getLsbD 9) c = true ↔ w.extractLsb' 9 3 &&& c.bits ≠ 0)

/-! ### Operate instructions -/

/-- R110: ADD, register mode. -/
def Obligations.AddRegister : Prop :=
  (∀ w : Word, w &&& 0xF020 = 0x1000 →
    decode w = .addR (regField w 9) (regField w 6) (regField w 0) ∧
    (w.extractLsb' 3 2 ≠ 0 → RejectedStrictly w)) ∧
  ∀ (dr sr1 sr2 : Reg) (s : State), ∃ t, exec (.addR dr sr1 sr2) s = .next t ∧
    ResultWritten dr (BitVec.ofNat 16 ((s.reg sr1).toNat + (s.reg sr2).toNat)) s t

/-- R111: ADD, immediate mode. -/
def Obligations.AddImmediate : Prop :=
  (∀ w : Word, w &&& 0xF020 = 0x1020 →
    decode w = .addI (regField w 9) (regField w 6) (sext 5 (w.extractLsb' 0 5))) ∧
  ∀ (dr sr1 : Reg) (imm : Word) (s : State), ∃ t, exec (.addI dr sr1 imm) s = .next t ∧
    ResultWritten dr (BitVec.ofNat 16 ((s.reg sr1).toNat + imm.toNat)) s t

/-- R113: AND, register mode. -/
def Obligations.AndRegister : Prop :=
  (∀ w : Word, w &&& 0xF020 = 0x5000 →
    decode w = .andR (regField w 9) (regField w 6) (regField w 0) ∧
    (w.extractLsb' 3 2 ≠ 0 → RejectedStrictly w)) ∧
  ∀ (dr sr1 sr2 : Reg) (s : State), ∃ t, exec (.andR dr sr1 sr2) s = .next t ∧
    ResultWritten dr (s.reg sr1 &&& s.reg sr2) s t

/-- R114: AND, immediate mode. -/
def Obligations.AndImmediate : Prop :=
  (∀ w : Word, w &&& 0xF020 = 0x5020 →
    decode w = .andI (regField w 9) (regField w 6) (sext 5 (w.extractLsb' 0 5))) ∧
  ∀ (dr sr1 : Reg) (imm : Word) (s : State), ∃ t, exec (.andI dr sr1 imm) s = .next t ∧
    ResultWritten dr (s.reg sr1 &&& imm) s t

/-- R116: NOT. -/
def Obligations.NotComplements : Prop :=
  (∀ w : Word, w &&& 0xF000 = 0x9000 →
    decode w = .notR (regField w 9) (regField w 6) ∧ (w.extractLsb' 0 6 ≠ 0x3F → RejectedStrictly w)) ∧
  ∀ (dr sr : Reg) (s : State), ∃ t, exec (.notR dr sr) s = .next t ∧
    ResultWritten dr (0xFFFF ^^^ s.reg sr) s t

/-! ### Control transfer -/

/-- R131: BR. -/
def Obligations.BranchOnCondition : Prop :=
  (∀ w : Word, w &&& 0xF000 = 0x0000 →
    decode w = .br (w.getLsbD 11) (w.getLsbD 10) (w.getLsbD 9) (sext 9 (w.extractLsb' 0 9))) ∧
  ∀ (n z p : Bool) (off : Word) (s : State), ∃ t, exec (.br n z p off) s = .next t ∧
    MovedTo (if (n = true ∧ s.cond = .n) ∨ (z = true ∧ s.cond = .z) ∨ (p = true ∧ s.cond = .p)
      then s.pc + off else s.pc) [] s t

/-- R133: JMP, and RET when the base is R7. -/
def Obligations.JumpToRegister : Prop :=
  (∀ w : Word, w &&& 0xF000 = 0xC000 →
    decode w = .jmp (regField w 6) ∧
    (w.extractLsb' 9 3 ≠ 0 ∨ w.extractLsb' 0 6 ≠ 0 → RejectedStrictly w)) ∧
  ∀ (base : Reg) (s : State), ∃ t, exec (.jmp base) s = .next t ∧ MovedTo (s.reg base) [] s t

/-- R134: JSR, the PC-relative form. -/
def Obligations.JsrSavesLinkAndJumps : Prop :=
  (∀ w : Word, w &&& 0xF800 = 0x4800 → decode w = .jsr (sext 11 (w.extractLsb' 0 11))) ∧
  ∀ (off : Word) (s : State), ∃ t, exec (.jsr off) s = .next t ∧
    t.reg 7 = s.pc ∧ MovedTo (s.pc + off) [7] s t

/-- R135: JSRR, the register form, under both values of `JSRR_ORDER`. -/
def Obligations.JsrrSavesLinkAndJumps : Prop :=
  (∀ w : Word, w &&& 0xF800 = 0x4000 →
    decode w = .jsrr (regField w 6) ∧
    (w.extractLsb' 9 2 ≠ 0 ∨ w.extractLsb' 0 6 ≠ 0 → RejectedStrictly w)) ∧
  ∀ (base : Reg) (s : State), ∃ t, exec (.jsrr base) s = .next t ∧ t.reg 7 = s.pc ∧
    (s.params.jsrrOrder = .linkFirst → MovedTo (if base = 7 then s.pc else s.reg base) [7] s t) ∧
    (s.params.jsrrOrder = .baseFirst → MovedTo (s.reg base) [7] s t)

/-! ### Loads, LEA and stores -/

/-- R150: LD. -/
def Obligations.LoadPcRelative : Prop :=
  (∀ w : Word, w &&& 0xF000 = 0x2000 → decode w = .ld (regField w 9) (sext 9 (w.extractLsb' 0 9))) ∧
  ∀ (dr : Reg) (off : Word) (s : State), ∃ v s1 t, ReadGives s (s.pc + off) v s1 ∧
    exec (.ld dr off) s = .next t ∧ ResultWritten dr v s1 t

/-- R151: LDI, the pointer first and then the value. -/
def Obligations.LoadIndirect : Prop :=
  (∀ w : Word, w &&& 0xF000 = 0xA000 → decode w = .ldi (regField w 9) (sext 9 (w.extractLsb' 0 9))) ∧
  ∀ (dr : Reg) (off : Word) (s : State), ∃ ptr s1 v s2 t, ReadGives s (s.pc + off) ptr s1 ∧
    ReadGives s1 ptr v s2 ∧ exec (.ldi dr off) s = .next t ∧ ResultWritten dr v s2 t

/-- R152: LDR. -/
def Obligations.LoadBaseOffset : Prop :=
  (∀ w : Word, w &&& 0xF000 = 0x6000 →
    decode w = .ldr (regField w 9) (regField w 6) (sext 6 (w.extractLsb' 0 6))) ∧
  ∀ (dr base : Reg) (off : Word) (s : State), ∃ v s1 t, ReadGives s (s.reg base + off) v s1 ∧
    exec (.ldr dr base off) s = .next t ∧ ResultWritten dr v s1 t

/-- R153: LEA. -/
def Obligations.LoadEffectiveAddress : Prop :=
  (∀ w : Word, w &&& 0xF000 = 0xE000 → decode w = .lea (regField w 9) (sext 9 (w.extractLsb' 0 9))) ∧
  ∀ (dr : Reg) (off : Word) (s : State), ∃ t, exec (.lea dr off) s = .next t ∧
    ResultWritten dr (s.pc + off) s t

/-- R155: ST. The premise on memory is part of the invariant of StepKeepsInvariant. -/
def Obligations.StorePcRelative : Prop :=
  (∀ w : Word, w &&& 0xF000 = 0x3000 → decode w = .st (regField w 9) (sext 9 (w.extractLsb' 0 9))) ∧
  ∀ (sr : Reg) (off : Word) (s : State), s.mem.wf = true → ∃ t, exec (.st sr off) s = .next t ∧
    StoredAt (s.pc + off) (s.reg sr) s t

/-- R156: STI, one read, the pointer, and then one write. -/
def Obligations.StoreIndirect : Prop :=
  (∀ w : Word, w &&& 0xF000 = 0xB000 → decode w = .sti (regField w 9) (sext 9 (w.extractLsb' 0 9))) ∧
  ∀ (sr : Reg) (off : Word) (s : State), s.mem.wf = true → ∃ ptr s1 t, ReadGives s (s.pc + off) ptr s1 ∧
    exec (.sti sr off) s = .next t ∧ StoredAt ptr (s.reg sr) s1 t

/-- R157: STR. -/
def Obligations.StoreBaseOffset : Prop :=
  (∀ w : Word, w &&& 0xF000 = 0x7000 →
    decode w = .str (regField w 9) (regField w 6) (sext 6 (w.extractLsb' 0 6))) ∧
  ∀ (sr base : Reg) (off : Word) (s : State), s.mem.wf = true → ∃ t, exec (.str sr base off) s = .next t ∧
    StoredAt (s.reg base + off) (s.reg sr) s t

/-! ### The reserved opcodes -/

/-- R97, R98: RTI and RES change no state and report the reserved tag; `RESERVED_POLICY` then decides. -/
def Obligations.ReservedOpcodes : Prop :=
  (∀ w : Word, w &&& 0xF000 = 0x8000 → decode w = .rti w) ∧
  (∀ w : Word, w &&& 0xF000 = 0xD000 → decode w = .res w) ∧
  ∀ (raw : Word) (s : State),
    exec (.rti raw) s = .next { s with outcome := some (.reserved .rti) } ∧
    exec (.res raw) s = .next { s with outcome := some (.reserved .res) } ∧
    ∀ op, (s.params.reservedPolicy = .ignore →
        ({ s with outcome := some (.reserved op) } : State).react = { s with outcome := some (.reserved op) }) ∧
      (s.params.reservedPolicy = .fault →
        ({ s with outcome := some (.reserved op) } : State).react =
          { s with outcome := some (.reserved op), run := .faulted (.reservedOpcode op) })

/-! ### TRAP -/

/-- The encoding of TRAP, and what every vector has in common: PC, COND, memory and the parameters are unchanged,
no register but R0 and R7 changes, and R7 is the link, also while the trap is held on input (R181, R215). -/
def Obligations.TrapEntry : Prop :=
  (∀ w : Word, w &&& 0xF000 = 0xF000 →
    decode w = .trap (w.extractLsb' 0 8) ∧ (w.extractLsb' 8 4 ≠ 0 → RejectedStrictly w)) ∧
  ∀ (v : Byte) (s : State), ∃ t, exec (.trap v) s = .next t ∧ t.pc = s.pc ∧ t.cond = s.cond ∧ SameCells s t ∧
    t.params = s.params ∧ SameRegsExcept [0, 7] s t ∧
    t.reg 7 = if s.params.trapSavesLink = true then s.pc else s.reg 7

/-- R183: GETC blocks until a character arrives; it goes to R0 zero-extended, without echo. While it blocks nothing
but the link has been written. -/
def Obligations.GetcReadsCharacter : Prop :=
  (∀ s : State, s.consoleIn = [] → ∃ t, exec (.trap 0x20) s = .next t ∧
    ServiceDone [] [] { s with run := .held .getc } t ∧ SameInputs s t ∧ t.outcome = none) ∧
  ∀ (s : State) (c : Byte) (rest : List Byte), s.consoleIn = c :: rest →
    ∃ t, exec (.trap 0x20) s = .next t ∧ ServiceDone [0] [] s t ∧ t.reg 0 = BitVec.ofNat 16 c.toNat ∧
      t.consoleIn = rest ∧ t.deviceIn = s.deviceIn ∧ t.drawCount = s.drawCount ∧ t.outcome = some .completed

/-- R184: OUT outputs bits 7–0 of R0. -/
def Obligations.OutWritesLowByte : Prop :=
  ∀ s : State, ∃ t, exec (.trap 0x21) s = .next t ∧ ServiceDone [] [(s.reg 0).extractLsb' 0 8] s t ∧
    SameInputs s t ∧ t.outcome = some .completed

/-- R185: PUTS outputs the low byte of each word up to a 0x0000 word; after 65536 words without one it faults. -/
def Obligations.PutsWritesString : Prop :=
  ∀ (s s1 : State) (ws : List Word), WordsRead s (s.reg 0) ws s1 →
    (∀ s2, ReadGives s1 (s.reg 0 + BitVec.ofNat 16 ws.length) 0 s2 → ws.length < 65536 →
      ∃ t, exec (.trap 0x22) s = .next t ∧ ServiceDone [] (ws.map fun v => v.extractLsb' 0 8) s t ∧
        SameInputs s2 t ∧ t.outcome = some .completed) ∧
    (ws.length = 65536 →
      ∃ t, exec (.trap 0x22) s = .next t ∧ ServiceDone [] (ws.map fun v => v.extractLsb' 0 8) s t ∧
        SameInputs s1 t ∧ t.outcome = some (.fault .unterminatedString))

/-- R190: IN outputs the prompt and blocks until a character arrives; it echoes it (by default the character
itself) and puts it in R0. While it blocks the link is written and the prompt is out. -/
def Obligations.InPromptsAndReads : Prop :=
  (∀ s : State, s.consoleIn = [] → ∃ t, exec (.trap 0x23) s = .next t ∧
    ServiceDone [] s.params.inPrompt { s with run := .held .input } t ∧ SameInputs s t ∧ t.outcome = none) ∧
  ∀ (s : State) (c : Byte) (rest : List Byte), s.consoleIn = c :: rest →
    (∃ t, exec (.trap 0x23) s = .next t ∧ ServiceDone [0] (s.params.inPrompt ++ s.params.echo c) s t ∧
      t.reg 0 = BitVec.ofNat 16 c.toNat ∧ t.consoleIn = rest ∧ t.deviceIn = s.deviceIn ∧
      t.drawCount = s.drawCount ∧ t.outcome = some .completed) ∧
    (s.params.inEcho = [] → s.params.echo c = [c])

/-- R186: PUTSP outputs the low byte and then the high byte, if it is not 0, of each word up to a 0x0000 word; after
65536 words without one it faults. -/
def Obligations.PutspWritesPackedString : Prop :=
  ∀ (s s1 : State) (ws : List Word), WordsRead s (s.reg 0) ws s1 →
    (∀ s2, ReadGives s1 (s.reg 0 + BitVec.ofNat 16 ws.length) 0 s2 → ws.length < 65536 →
      ∃ t, exec (.trap 0x24) s = .next t ∧
        ServiceDone [] (ws.flatMap fun v =>
          v.extractLsb' 0 8 :: if v.extractLsb' 8 8 = 0 then [] else [v.extractLsb' 8 8]) s t ∧
        SameInputs s2 t ∧ t.outcome = some .completed) ∧
    (ws.length = 65536 →
      ∃ t, exec (.trap 0x24) s = .next t ∧
        ServiceDone [] (ws.flatMap fun v =>
          v.extractLsb' 0 8 :: if v.extractLsb' 8 8 = 0 then [] else [v.extractLsb' 8 8]) s t ∧
        SameInputs s1 t ∧ t.outcome = some (.fault .unterminatedString))

/-- R187: PUTS and PUTSP read consecutive, wrapping addresses, with device-region reads as draws, and end either
at a 0x0000 word or, after 65536 words without one, with `Fault(UnterminatedString)`; nothing else happens. -/
def Obligations.StringTrapsEndOrFault : Prop :=
  ∀ (v : Byte) (s : State), v = 0x22 ∨ v = 0x24 → ∃ t ws s1, exec (.trap v) s = .next t ∧
    WordsRead s (s.reg 0) ws s1 ∧
    ((ws.length < 65536 ∧ (∃ s2, ReadGives s1 (s.reg 0 + BitVec.ofNat 16 ws.length) 0 s2 ∧ SameInputs s2 t) ∧
        t.outcome = some .completed) ∨
      (ws.length = 65536 ∧ SameInputs s1 t ∧ t.outcome = some (.fault .unterminatedString)))

/-- R188: HALT outputs its message and gives the outcome `Halt`; the fetch loop then stops. -/
def Obligations.HaltStops : Prop :=
  ∀ s : State, ∃ t, exec (.trap 0x25) s = .next t ∧ ServiceDone [] s.params.haltMessage s t ∧ SameInputs s t ∧
    t.outcome = some .halt ∧ t.react = { t with run := .halted } ∧ step t.react = .next t.react

/-- R189: a vector that names no service writes R7 under `TRAP_SAVES_LINK` and nothing else; its outcome is
`UnknownTrap(v)`, and the policy decides whether the run goes on. -/
def Obligations.UnknownVector : Prop :=
  ∀ (v : Byte) (s : State), v.toNat < 0x20 ∨ 0x25 < v.toNat → ∃ t, exec (.trap v) s = .next t ∧
    ServiceDone [] [] s t ∧ SameInputs s t ∧ t.outcome = some (.unknownTrap v) ∧
    (s.params.unknownTrapPolicy = .fault → t.react = { t with run := .faulted (.unknownTrap v) }) ∧
    (s.params.unknownTrapPolicy = .ignore → t.react = t)

/-- R191: with no character GETC and IN hold the core once they have written the link and IN has output its prompt
(R181, R190); it stays held and unchanged for any number of steps, neither faulted nor halted; a character completes
the service, which writes R0 alone. That the completion is a step of its own is the model's choice
(notes/assumptions/7.md). -/
def Obligations.InputHoldsUntilCharacter : Prop :=
  (∀ s : State, s.consoleIn = [] →
    exec (.trap 0x20) s = .next (s.saveLink.hold .getc) ∧
    exec (.trap 0x23) s = .next ((s.saveLink.emit s.params.inPrompt).hold .input)) ∧
  (∀ (s : State) (svc : InputService), s.run = .held svc → s.consoleIn = [] →
    ∀ k, Host.Core.run Sys2Proof.core k s = .next s) ∧
  ∀ (s : State) (svc : InputService) (c : Byte) (rest : List Byte), s.run = .held svc → s.consoleIn = c :: rest →
    ∃ t, step s = .next t ∧ t.reg 0 = BitVec.ofNat 16 c.toNat ∧ t.consoleIn = rest ∧
      t.outcome = some .completed ∧ t.deviceIn = s.deviceIn ∧ t.drawCount = s.drawCount ∧
      t.output = s.output ++ (echoBytes s.params c svc).map .console ∧
      echoBytes s.params c .getc = [] ∧ echoBytes s.params c .input = s.params.echo c ∧
      SameRegsExcept [0] s t ∧ t.pc = s.pc ∧ t.cond = s.cond ∧ SameCells s t ∧ t.run = .running ∧
      t.params = s.params

/-! ### The fetch loop and the memory port -/

/-- A step of a running machine reads the word at the PC, increments the PC, runs the instruction the decoder gives
for the word and reacts to its outcome (R90, R92, R93). -/
def Obligations.StepRunsDecodedInstruction : Prop :=
  ∀ (s s1 : State) (w : Word) (i : Instr), s.run = .running → ReadGives s s.pc w s1 →
    decodeChecked s.params.strictFixedBits w = .ok i →
    i = decode w ∧ ∀ t, exec i { s1 with pc := s.pc + 1 } = .next t → step s = .next t.react

/-- R93: the fetch loop's reaction to each outcome; a halted machine stays as it is, and a recorded fault is never
cleared. -/
def Obligations.ReactionToOutcomes : Prop :=
  (∀ s : State,
    (s.outcome = some .completed → s.react = s) ∧
    (s.outcome = some .halt → s.react = { s with run := .halted }) ∧
    (∀ op, s.outcome = some (.reserved op) →
      (s.params.reservedPolicy = .ignore → s.react = s) ∧
      (s.params.reservedPolicy = .fault → s.react = { s with run := .faulted (.reservedOpcode op) })) ∧
    (∀ v, s.outcome = some (.unknownTrap v) →
      (s.params.unknownTrapPolicy = .ignore → s.react = s) ∧
      (s.params.unknownTrapPolicy = .fault → s.react = { s with run := .faulted (.unknownTrap v) })) ∧
    (∀ reason, s.outcome = some (.fault reason) → s.react = { s with run := .faulted reason })) ∧
  (∀ s : State, s.run = .halted → ∀ k, Host.Core.run Sys2Proof.core k s = .next s) ∧
  (∀ (s : State) (reason : Fault), s.run = .faulted reason →
    ∀ k, Host.Core.run Sys2Proof.core (k + 1) s = .fault reason)

/-- R45: outside the device region a read gives the last value written and a write changes one cell; inside it a read
is a draw and a write goes to the environment. The default region is 0xFE00–0xFFFF. Where a draw comes from (the next
answer in `deviceIn`, else the free value `Config.freeWord` of `drawCount`, which the draw raises) is the model's choice
(notes/assumptions/5.md): R45 says only that the environment supplies any value. -/
def Obligations.MemoryPort : Prop :=
  (∀ (s : State) (a b v : Word), s.mem.wf = true → s.params.inDevice a = false → s.params.inDevice b = false →
    s.memRead b = (s.mem.read b, s) ∧
    (s.memWrite a v).memRead b = (if b = a then v else s.mem.read b, s.memWrite a v) ∧
    (s.memWrite a v).output = s.output) ∧
  (∀ (s : State) (a v : Word), s.params.inDevice a = true →
    s.memWrite a v = { s with output := s.output ++ [.device a v] } ∧
    (∀ rest, s.deviceIn = v :: rest → s.memRead a = (v, { s with deviceIn := rest })) ∧
    (s.deviceIn = [] →
      s.memRead a = (Config.freeWord s.drawCount, { s with drawCount := s.drawCount + 1 }))) ∧
  (∀ a : Word, Params.default.inDevice a = true ↔ 0xFE00 ≤ a.toNat) ∧
  Params.default.kbsrAddr = 0xFE00 ∧ Params.default.kbdrAddr = 0xFE02

/-- A word stored over the next instruction is what the next step executes (R51). -/
def Obligations.StoredWordRunsNext : Prop :=
  ∀ (s : State) (sr : Reg), s.Inv → s.run = .running → s.params.inDevice s.pc = false →
    s.params.inDevice (s.pc + 1) = false → s.mem.read s.pc = encode (.st sr 0) →
    ∃ t, step s = .next t ∧ t.run = .running ∧ t.pc = s.pc + 1 ∧
      step t = reactTo (execute (s.reg sr) { t with pc := s.pc + 1 + 1 })

/-! ### Launch and the invariant -/

/-- R31, R230: the launch state takes every value from the launch inputs; no outcome or fault is recorded and nothing
has been output; it meets the invariant. -/
def Obligations.LaunchState : Prop :=
  ∀ (p : Params) (l : LaunchInput) (chars : List Byte) (answers : List Word),
    (State.launch p l chars answers).Inv ∧
    (State.launch p l chars answers).pc = l.entry ∧
    (∀ r : Reg, (State.launch p l chars answers).reg r = l.initRegs[r]) ∧
    (State.launch p l chars answers).cond = l.initCond ∧
    (∀ a, p.inDevice a = false → (State.launch p l chars answers).mem.read a = l.initMem a) ∧
    (State.launch p l chars answers).run = .running ∧
    (State.launch p l chars answers).outcome = none ∧
    (State.launch p l chars answers).output = [] ∧
    (State.launch p l chars answers).consoleIn = chars ∧
    (State.launch p l chars answers).params = p

/-- The state after reset meets the invariant; its register values are the model's choice
(notes/assumptions/4.md). -/
def Obligations.ResetHoldsInvariant : Prop := State.reset.Inv

/-- Every step keeps the invariant: memory canonical and outside the device region, the recorded outcome in agreement
with what the fetch loop is doing, and the link of a held trap written (R45, R91, R93, R181). -/
def Obligations.StepKeepsInvariant : Prop :=
  ∀ s t : State, s.Inv → step s = .next t → t.Inv

/-- Two canonical memories that read alike at every address are equal data. -/
def Obligations.CanonicalMemoriesEqual : Prop :=
  ∀ m m' : Mem, m.wf = true → m'.wf = true → (∀ a, m.read a = m'.read a) → m = m'

/-! ### Rules about the whole machine -/

/-- R24: COND is written by exactly the seven flag-setting instructions, and reflects the value written to the
destination register. -/
def Obligations.OnlyFlagSettersWriteCond : Prop :=
  (∀ (i : Instr) (s : State), ∃ t, exec i s = .next t ∧
    (∀ dr, flagDest i = some dr → CondReflects (t.reg dr) t.cond) ∧
    (flagDest i = none → t.cond = s.cond)) ∧
  (∀ i : Instr, (flagDest i).isSome = true ↔ i.opcode ∈ [.add, .and, .not, .ld, .ldi, .ldr, .lea]) ∧
  (∀ (s t : State) (svc : InputService), s.run = .held svc → step s = .next t → t.cond = s.cond)

/-- No instruction but BR reads COND: run from two states that differ at most in COND, it leaves two states that
differ at most in COND, and that agree there too when it sets the flag. (Of the rest of R27, OnlyFlagSettersWriteCond
says which instructions write COND, and BranchOnCondition that BR copies it nowhere.) -/
def Obligations.OnlyBrReadsCond : Prop :=
  ∀ (i : Instr) (s s' : State), i.opcode ≠ .br → AgreeButCond s s' →
    ∃ t t', exec i s = .next t ∧ exec i s' = .next t' ∧ AgreeButCond t t' ∧
      ((flagDest i).isSome = true → t'.cond = t.cond)

/-- No instruction writes a general register beside those the table of R21 lists for it, and only BR, JMP, JSR and
JSRR change the PC (R23). -/
def Obligations.OnlyListedRegistersChange : Prop :=
  ∀ (i : Instr) (s : State), ∃ t, exec i s = .next t ∧ SameRegsExcept (regWrites i) s t ∧
    (i.opcode ∉ [.br, .jmp, .jsr] → t.pc = s.pc)

/-- Only ST, STI and STR change a cell of memory or give the environment a device write (R41). -/
def Obligations.OnlyStoresWriteMemory : Prop :=
  ∀ (i : Instr) (s : State), i.opcode ∉ [.st, .sti, .str] → ∃ (t : State) (bytes : List Byte),
    exec i s = .next t ∧ SameCells s t ∧
    t.output = s.output ++ bytes.map .console

/-- An instruction that R41 gives no access does not depend on memory or on the device answers, and leaves both
as they are. -/
def Obligations.OthersDoNotAccessMemory : Prop :=
  ∀ (i : Instr) (s s' : State), accessesMemory i = false → AgreeButMemory s s' →
    ∃ t t', exec i s = .next t ∧ exec i s' = .next t' ∧ AgreeButMemory t t' ∧
      (t.mem = s.mem ∧ t.deviceIn = s.deviceIn ∧ t.drawCount = s.drawCount) ∧
      (t'.mem = s'.mem ∧ t'.deviceIn = s'.deviceIn ∧ t'.drawCount = s'.drawCount)

/-- Every instruction in every state answers a next state, with exactly one outcome on the port, or holds on input
without one (R91, R191, R212). -/
def Obligations.ExecAnswersOneOutcome : Prop :=
  ∀ (i : Instr) (s : State), ∃ t, exec i s = .next t ∧
    (((∃ o, t.outcome = some o) ∧ t.run = s.run) ∨
      (t.outcome = none ∧ s.consoleIn = [] ∧
        ((i = .trap 0x20 ∧ t.run = .held .getc) ∨ (i = .trap 0x23 ∧ t.run = .held .input))))

/-- The only step that halts the machine is the one that runs TRAP 0x25 (R188, R234; vector S8 of
spec/95_test_vectors.md). -/
def Obligations.OnlyHaltTrapHalts : Prop :=
  (∀ (s s1 t : State) (w : Word), s.run = .running → ReadGives s s.pc w s1 → step s = .next t →
    (t.run = .halted ↔ decodeChecked s.params.strictFixedBits w = .ok (.trap 0x25))) ∧
  (∀ (s t : State) (svc : InputService), s.run = .held svc → step s = .next t → t.run ≠ .halted)

/-- R210: the complete list of faults: each recorded fault has the cause the table gives, in the word just
fetched. -/
def Obligations.FaultCauses : Prop :=
  ∀ (s s1 t : State) (w : Word) (reason : Fault), s.run = .running → ReadGives s s.pc w s1 → step s = .next t →
    t.run = .faulted reason →
    match reason with
    | .illegalEncoding w' => w' = w ∧ s.params.strictFixedBits = true ∧ StrictMismatch w
    | .reservedOpcode op => s.params.reservedPolicy = .fault ∧ (decode w).opcode = reservedTag op
    | .unknownTrap v => s.params.unknownTrapPolicy = .fault ∧ decode w = .trap v ∧
        (v.toNat < 0x20 ∨ 0x25 < v.toNat)
    | .unterminatedString => (decode w = .trap 0x22 ∨ decode w = .trap 0x24) ∧
        ∃ ws s2, WordsRead { s1 with pc := s.pc + 1 } (s.reg 0) ws s2 ∧ ws.length = 65536

/-- Along every run, output is only ever added at the end, input is only ever taken from the front, and the
parameters stay as they are (R7, R192). The fields it speaks of are the model's choice: `deviceIn` and `drawCount`, of
which R45 says only that the environment supplies any value (notes/assumptions/5.md), the parameters in State (6.md),
`consoleIn` as a list (9.md) and `output` as one list of both kinds of event (10.md). -/
def Obligations.RunsExtendOutput : Prop :=
  ∀ s t : State, Reaches s t → s.output <+: t.output ∧ t.consoleIn <:+ s.consoleIn ∧
    t.deviceIn <:+ s.deviceIn ∧ s.drawCount ≤ t.drawCount ∧ t.params = s.params
end

