-- ==== Sys2Proof/Laws/Decode.lean ====
section
/-! SUPPORT. The decoder's bit laws: fields and bits as quotients of the word's number, the encoder's
concatenations as sums, and sign extension against the ranges of WellFormed. With them a question about the bits
of a word is linear arithmetic. -/

namespace Sys2Proof

theorem toNat_append_add {n m : Nat} (x : BitVec n) (y : BitVec m) :
    (x ++ y).toNat = x.toNat * 2 ^ m + y.toNat := by
  rw [BitVec.toNat_append, ← Nat.shiftLeft_add_eq_or_of_lt y.isLt, Nat.shiftLeft_eq]

theorem field_toNat (w : Word) (lo n : Nat) : (field w lo n).toNat = w.toNat / 2 ^ lo % 2 ^ n := by
  simp [field, Nat.shiftRight_eq_div_pow]

theorem regField_val (w : Word) (lo : Nat) : (regField w lo).val = w.toNat / 2 ^ lo % 8 :=
  field_toNat w lo 3

theorem bitAt_eq (w : Word) (i : Nat) : bitAt w i = decide (w.toNat / 2 ^ i % 2 = 1) := by
  simp [bitAt, BitVec.getLsbD, Nat.testBit_eq_decide_div_mod_eq]

theorem regBits_toNat (r : Reg) : (regBits r).toNat = r.val := rfl

theorem lowBits_toNat (n : Nat) (v : Word) : (lowBits n v).toNat = v.toNat % 2 ^ n := by
  simp [lowBits]

theorem ofBool_toNat (b : Bool) : (BitVec.ofBool b).toNat = b.toNat := by cases b <;> rfl

/-- The opcode tag is the one whose 4-bit value stands in bits 15–12. -/
theorem decodeOpcode_eq_iff (w : Word) (op : OpCode) : decodeOpcode w = op ↔ field w 12 4 = op.bits := by
  have key : ∀ b : BitVec 4, ∀ op : OpCode, opcodeOf[b.toFin] = op ↔ b = op.bits := by
    intro b op
    cases op <;> revert b <;> decide
  exact key _ op

theorem decodeOpcode_of_field {w : Word} {op : OpCode} (h : field w 12 4 = op.bits) : decodeOpcode w = op :=
  (decodeOpcode_eq_iff w op).2 h

/-! ### Sign extension -/

theorem sext_toInt {n : Nat} (h : n ≤ 16) (f : BitVec n) : (sext n f).toInt = f.toInt :=
  BitVec.toInt_signExtend_of_le h

theorem fitsImm5_simm (w : Word) : fitsImm5 (simm w 5) = true := by
  have h1 := (field w 0 5).toInt_lt
  have h2 := (field w 0 5).le_toInt
  simp [fitsImm5, signedIn, simm, sext_toInt]
  omega

theorem fitsOffset6_simm (w : Word) : fitsOffset6 (simm w 6) = true := by
  have h1 := (field w 0 6).toInt_lt
  have h2 := (field w 0 6).le_toInt
  simp [fitsOffset6, signedIn, simm, sext_toInt]
  omega

theorem fitsOffset9_simm (w : Word) : fitsOffset9 (simm w 9) = true := by
  have h1 := (field w 0 9).toInt_lt
  have h2 := (field w 0 9).le_toInt
  simp [fitsOffset9, signedIn, simm, sext_toInt]
  omega

theorem fitsOffset11_simm (w : Word) : fitsOffset11 (simm w 11) = true := by
  have h1 := (field w 0 11).toInt_lt
  have h2 := (field w 0 11).le_toInt
  simp [fitsOffset11, signedIn, simm, sext_toInt]
  omega

/-- A word in the signed range of an n-bit field is the sign extension of its low n bits. -/
theorem sext_lowBits {n : Nat} (hn : n ≤ 16) (v : Word) (hlo : -(2 ^ n : Nat) ≤ 2 * v.toInt)
    (hhi : 2 * v.toInt < (2 ^ n : Nat)) : sext n (lowBits n v) = v := by
  apply BitVec.eq_of_toInt_eq
  rw [sext_toInt hn, lowBits, BitVec.toInt_setWidth]
  have hv : v.toInt.bmod (2 ^ n) = v.toInt := by
    rw [Int.bmod_eq_of_le] <;> omega
  rw [← hv]
  conv_lhs => rw [← Int.emod_bmod]
  conv_rhs => rw [← Int.emod_bmod]
  congr 1
  rw [BitVec.toInt_eq_toNat_bmod, Int.bmod_def]
  have hd : ((2 ^ n : Nat) : Int) ∣ ((2 ^ 16 : Nat) : Int) := by
    exact_mod_cast pow_dvd_pow 2 hn
  split
  · exact (Int.emod_emod_of_dvd _ hd).symm
  · rw [Int.sub_emod, Int.emod_emod_of_dvd _ hd, Int.emod_eq_zero_of_dvd hd, Int.sub_zero, Int.emod_emod_of_dvd _ (dvd_refl _)]

theorem sext_lowBits_imm5 {v : Word} (h : fitsImm5 v = true) : sext 5 (lowBits 5 v) = v := by
  simp [fitsImm5, signedIn] at h
  exact sext_lowBits (by omega) v (by omega) (by omega)

theorem sext_lowBits_offset6 {v : Word} (h : fitsOffset6 v = true) : sext 6 (lowBits 6 v) = v := by
  simp [fitsOffset6, signedIn] at h
  exact sext_lowBits (by omega) v (by omega) (by omega)

theorem sext_lowBits_offset9 {v : Word} (h : fitsOffset9 v = true) : sext 9 (lowBits 9 v) = v := by
  simp [fitsOffset9, signedIn] at h
  exact sext_lowBits (by omega) v (by omega) (by omega)

theorem sext_lowBits_offset11 {v : Word} (h : fitsOffset11 v = true) : sext 11 (lowBits 11 v) = v := by
  simp [fitsOffset11, signedIn] at h
  exact sext_lowBits (by omega) v (by omega) (by omega)

/-- A word's bits under a mask of whole fields, as numbers. -/
theorem field_of_masked {w m p : Word} (h : w &&& m = p) (lo n : Nat) (hm : field m lo n = BitVec.allOnes n) :
    field w lo n = field p lo n := by
  rw [← h]
  simp only [field] at hm ⊢
  rw [BitVec.extractLsb'_and, hm, BitVec.and_allOnes]

theorem bitAt_of_masked {w m p : Word} (h : w &&& m = p) (i : Nat) (hm : bitAt m i = true) :
    bitAt w i = bitAt p i := by
  rw [← h]
  simp only [bitAt] at hm ⊢
  rw [BitVec.getLsbD_and, hm, Bool.and_true]

/-! ### Masks: `w & mask` by fields, and as a number -/

theorem append_and {n m : Nat} (a c : BitVec n) (b d : BitVec m) :
    (a ++ b) &&& (c ++ d) = (a &&& c) ++ (b &&& d) :=
  BitVec.and_append (x₁ := a) (x₂ := c) (y₁ := b) (y₂ := d)
theorem and_mask4 (w : Word) : w &&& 0xF000 = field w 12 4 ++ 0#12 := by
  have hw : w = field w 12 4 ++ field w 0 12 := by
    apply BitVec.eq_of_toNat_eq
    simp only [toNat_append_add, field_toNat]
    have := w.isLt
    omega
  have h : (field w 12 4 ++ field w 0 12) &&& (BitVec.allOnes 4 ++ 0#12) = field w 12 4 ++ 0#12 := by
    rw [append_and, BitVec.and_allOnes, BitVec.and_zero]
  conv_lhs => rw [hw]
  exact h
theorem and_mask5 (w : Word) : w &&& 0xF800 = field w 11 5 ++ 0#11 := by
  have hw : w = field w 11 5 ++ field w 0 11 := by
    apply BitVec.eq_of_toNat_eq
    simp only [toNat_append_add, field_toNat]
    have := w.isLt
    omega
  have h : (field w 11 5 ++ field w 0 11) &&& (BitVec.allOnes 5 ++ 0#11) = field w 11 5 ++ 0#11 := by
    rw [append_and, BitVec.and_allOnes, BitVec.and_zero]
  conv_lhs => rw [hw]
  exact h
theorem and_maskMode (w : Word) :
    w &&& 0xF020 = field w 12 4 ++ 0#6 ++ field w 5 1 ++ 0#5 := by
  have hw : w = field w 12 4 ++ field w 6 6 ++ field w 5 1 ++ field w 0 5 := by
    apply BitVec.eq_of_toNat_eq
    simp only [toNat_append_add, field_toNat]
    have := w.isLt
    omega
  have h : (field w 12 4 ++ field w 6 6 ++ field w 5 1 ++ field w 0 5) &&& (BitVec.allOnes 4 ++ 0#6 ++ BitVec.allOnes 1 ++ 0#5) = field w 12 4 ++ 0#6 ++ field w 5 1 ++ 0#5 := by
    rw [append_and, append_and, append_and, BitVec.and_allOnes, BitVec.and_zero, BitVec.and_allOnes, BitVec.and_zero]
  conv_lhs => rw [hw]
  exact h
theorem mask4_toNat (w : Word) : (w &&& 0xF000).toNat = w.toNat / 4096 * 4096 := by
  rw [and_mask4]; simp only [toNat_append_add, field_toNat]; have := w.isLt; simp; omega
theorem mask5_toNat (w : Word) : (w &&& 0xF800).toNat = w.toNat / 2048 * 2048 := by
  rw [and_mask5]; simp only [toNat_append_add, field_toNat]; have := w.isLt; simp; omega
theorem maskMode_toNat (w : Word) : (w &&& 0xF020).toNat = w.toNat / 4096 * 4096 + w.toNat / 32 % 2 * 32 := by
  rw [and_maskMode]; simp only [toNat_append_add, field_toNat]; have := w.isLt; simp; omega

theorem field_eq {w : Word} {lo n : Nat} {x : BitVec n} (h : w.toNat / 2^lo % 2^n = x.toNat) : field w lo n = x :=
  BitVec.eq_of_toNat_eq (by rw [field_toNat]; exact h)

theorem regField_eq {w : Word} {lo : Nat} {x : Reg} (h : w.toNat / 2 ^ lo % 8 = x.val) : regField w lo = x :=
  Fin.ext (by rw [regField_val]; exact h)

end Sys2Proof
end

