-- ==== Sys2Proof/Laws/Encoding.lean ====
section
/-! SUPPORT. Strict mode: the decoder's check is the list of spec/30_encoding.md R77, and what `execute` answers
with it. -/

namespace Sys2Proof.Machine

theorem fixedBitsDiffer_iff (w : Word) : fixedBitsDiffer w = true ↔ StrictMismatch w := by
  unfold fixedBitsDiffer decode StrictMismatch
  cases h : decodeOpcode w <;> have h' := (decodeOpcode_eq_iff w _).1 h <;>
    simp only [field, OpCode.bits] at h' <;> cases h5 : bitAt w 5 <;> cases h11 : bitAt w 11 <;>
    simp only [bitAt] at h5 h11 <;> simp [h', h5, h11, field] <;>
    (intro _; first | exact h5 | exact h11)

theorem rejectedStrictly_of_mismatch {w : Word} (h : StrictMismatch w) : RejectedStrictly w := by
  intro s hs
  simp [execute, decodeChecked, hs, (fixedBitsDiffer_iff w).2 h, State.raise, State.finish]

theorem execute_of_no_mismatch {w : Word} (h : ¬ StrictMismatch w) (s : State) : execute w s = exec (decode w) s := by
  have hf : fixedBitsDiffer w = false := by
    cases hd : fixedBitsDiffer w
    · rfl
    · exact absurd ((fixedBitsDiffer_iff w).1 hd) h
  simp [execute, decodeChecked, hf]

theorem execute_of_lenient (w : Word) {s : State} (h : s.params.strictFixedBits = false) :
    execute w s = exec (decode w) s := by
  simp [execute, decodeChecked, h]

end Sys2Proof.Machine
end

