-- ==== Sys2Proof/Laws/Memory.lean ====
section
/-! SUPPORT. The laws of the memory list: read after write, and the canonical form kept by every operation. -/

namespace Sys2Proof.Machine

/-! ### Reading -/

@[simp] theorem Mem.lookup_nil (a : Nat) : Mem.lookup [] a = Mem.unlisted := rfl

@[simp] theorem Mem.lookup_cons_cell (k : Nat) (v : Word) (m : Mem) (a : Nat) :
    Mem.lookup ((k, v) :: m) a = if a = k then v else Mem.lookup m a := rfl

@[simp] theorem Mem.wfFrom_nil (lo : Nat) : Mem.wfFrom lo [] = true := rfl

theorem Mem.wfFrom_cons_cell (lo k : Nat) (v : Word) (m : Mem) :
    Mem.wfFrom lo ((k, v) :: m) = true ↔
      lo ≤ k ∧ k < 65536 ∧ v ≠ Mem.unlisted ∧ Mem.wfFrom (k + 1) m = true := by
  simp [Mem.wfFrom, and_assoc]

theorem Mem.wfFrom_mono {lo lo' : Nat} (h : lo' ≤ lo) :
    ∀ {m : Mem}, Mem.wfFrom lo m = true → Mem.wfFrom lo' m = true
  | [], _ => rfl
  | (k, v) :: m, hw => by
    rw [Mem.wfFrom_cons_cell] at hw ⊢
    exact ⟨h.trans hw.1, hw.2⟩

/-- Below the first index a canonical memory lists nothing. -/
theorem Mem.lookup_below {lo a : Nat} (h : a < lo) :
    ∀ {m : Mem}, Mem.wfFrom lo m = true → Mem.lookup m a = Mem.unlisted
  | [], _ => rfl
  | (k, v) :: m, hw => by
    rw [Mem.wfFrom_cons_cell] at hw
    have hk : a ≠ k := by omega
    rw [Mem.lookup_cons_cell, if_neg hk]
    exact Mem.lookup_below (by omega) hw.2.2.2

/-! ### Writing one cell -/

theorem Mem.lookup_cons {k : Nat} {m : Mem} (h : Mem.wfFrom (k + 1) m = true) (v : Word) (a : Nat) :
    Mem.lookup (Mem.cons k v m) a = if a = k then v else Mem.lookup m a := by
  unfold Mem.cons
  split
  · rename_i hv
    split
    · rename_i ha
      rw [ha, hv]
      exact Mem.lookup_below (Nat.lt_succ_self k) h
    · rfl
  · rfl

theorem Mem.wfFrom_cons {lo k : Nat} {m : Mem} (hlo : lo ≤ k) (hk : k < 65536)
    (h : Mem.wfFrom (k + 1) m = true) (v : Word) : Mem.wfFrom lo (Mem.cons k v m) = true := by
  unfold Mem.cons
  split
  · exact Mem.wfFrom_mono (by omega) h
  · rename_i hv
    exact (Mem.wfFrom_cons_cell lo k v m).2 ⟨hlo, hk, hv, h⟩

theorem Mem.wfFrom_update {a : Nat} (ha : a < 65536) (v : Word) :
    ∀ {lo : Nat} {m : Mem}, lo ≤ a → Mem.wfFrom lo m = true → Mem.wfFrom lo (Mem.update m a v) = true
  | _, [], hlo, _ => Mem.wfFrom_cons hlo ha rfl v
  | lo, (k, x) :: m, hlo, hw => by
    have hw' := (Mem.wfFrom_cons_cell lo k x m).1 hw
    unfold Mem.update
    split
    · rename_i hak
      exact Mem.wfFrom_cons hlo ha ((Mem.wfFrom_cons_cell _ k x m).2 ⟨hak, hw'.2⟩) v
    · split
      · rename_i hak
        subst hak
        exact Mem.wfFrom_cons hlo ha hw'.2.2.2 v
      · exact (Mem.wfFrom_cons_cell _ _ _ _).2
          ⟨hw'.1, hw'.2.1, hw'.2.2.1, Mem.wfFrom_update ha v (by omega) hw'.2.2.2⟩

/-- In a canonical memory an update changes the one cell and no other. -/
theorem Mem.lookup_update (a : Nat) (v : Word) :
    ∀ {lo : Nat} {m : Mem}, lo ≤ a → Mem.wfFrom lo m = true → ∀ b : Nat,
      Mem.lookup (Mem.update m a v) b = if b = a then v else Mem.lookup m b
  | _, [], _, _, b => Mem.lookup_cons (k := a) (m := []) rfl v b
  | lo, (k, x) :: m, hlo, hw, b => by
    have hw' := (Mem.wfFrom_cons_cell lo k x m).1 hw
    unfold Mem.update
    split
    · rename_i hak
      exact Mem.lookup_cons ((Mem.wfFrom_cons_cell _ k x m).2 ⟨hak, hw'.2⟩) v b
    · split
      · rename_i hak
        subst hak
        rw [Mem.lookup_cons hw'.2.2.2 v b, Mem.lookup_cons_cell]
        split <;> rfl
      · rw [Mem.lookup_cons_cell, Mem.lookup_cons_cell, Mem.lookup_update a v (by omega) hw'.2.2.2 b]
        split <;> split <;> first | rfl | omega

/-- Writing keeps the canonical form. -/
theorem Mem.wf_write {m : Mem} (h : m.wf = true) (a v : Word) : (m.write a v).wf = true :=
  Mem.wfFrom_update a.isLt v (Nat.zero_le _) h

/-- Read after write. -/
theorem Mem.read_write {m : Mem} (h : m.wf = true) (a v b : Word) :
    (m.write a v).read b = if b = a then v else m.read b := by
  unfold Mem.read Mem.write
  rw [Mem.lookup_update a.toNat v (Nat.zero_le _) h]
  simp [BitVec.toNat_inj]

/-- An update lists at most its own address beside the cells listed before. -/
theorem Mem.mem_update {k a : Nat} {x v : Word} :
    ∀ {m : Mem}, (k, x) ∈ Mem.update m a v → k = a ∨ (k, x) ∈ m
  | [], h => by
    unfold Mem.update Mem.cons at h
    split at h <;> simp_all
  | (k', x') :: m, h => by
    unfold Mem.update at h
    split at h
    · unfold Mem.cons at h
      split at h <;> simp_all
      tauto
    · split at h
      · unfold Mem.cons at h
        split at h <;> simp_all
        tauto
      · rcases List.mem_cons.1 h with h | h
        · simp_all
        · rcases Mem.mem_update h with h | h <;> simp_all

/-! ### A memory given as a function -/

theorem Mem.wfFrom_filterMap (g : Nat → Option Word) (hg : ∀ a v, g a = some v → v ≠ Mem.unlisted) :
    ∀ (n lo : Nat), lo + n ≤ 65536 →
      Mem.wfFrom lo ((List.range' lo n).filterMap fun a => (g a).map fun v => (a, v)) = true
  | 0, _, _ => rfl
  | n + 1, lo, h => by
    have ih := Mem.wfFrom_filterMap g hg n (lo + 1) (by omega)
    rw [List.range'_succ, List.filterMap_cons]
    cases hgl : g lo with
    | none => exact Mem.wfFrom_mono (by omega) ih
    | some v => exact (Mem.wfFrom_cons_cell _ _ _ _).2 ⟨le_refl _, by omega, hg _ _ hgl, ih⟩

theorem Mem.lookup_filterMap (g : Nat → Option Word) (a : Nat) :
    ∀ (n lo : Nat), lo ≤ a → a < lo + n →
      Mem.lookup ((List.range' lo n).filterMap fun b => (g b).map fun v => (b, v)) a
        = (g a).getD (Mem.lookup ((List.range' (a + 1) (lo + n - (a + 1))).filterMap
            fun b => (g b).map fun v => (b, v)) a)
  | 0, lo, h1, h2 => by omega
  | n + 1, lo, h1, h2 => by
    rw [List.range'_succ, List.filterMap_cons]
    by_cases ha : a = lo
    · subst ha
      have e : a + (n + 1) - (a + 1) = n := by omega
      cases hga : g a <;> simp [e]
    · have ih := Mem.lookup_filterMap g a n (lo + 1) (by omega) (by omega)
      have e : lo + 1 + n - (a + 1) = lo + (n + 1) - (a + 1) := by omega
      rw [e] at ih
      cases hgl : g lo <;> simp [ih, ha]

/-- `Mem.ofFunction` in the form the two lemmas above speak of. -/
theorem Mem.ofFunction_eq (keep : Word → Bool) (f : Word → Word) :
    Mem.ofFunction keep f = (List.range' 0 65536).filterMap fun a =>
      ((if keep (BitVec.ofNat 16 a) && f (BitVec.ofNat 16 a) != Mem.unlisted
        then some (f (BitVec.ofNat 16 a)) else none).map fun v => (a, v)) := by
  unfold Mem.ofFunction
  rw [List.range_eq_range']
  congr 1
  funext a
  split <;> rfl

/-- A memory given as a function is canonical. -/
theorem Mem.wf_ofFunction (keep : Word → Bool) (f : Word → Word) : (Mem.ofFunction keep f).wf = true := by
  rw [Mem.ofFunction_eq]
  refine Mem.wfFrom_filterMap (fun a => if keep (BitVec.ofNat 16 a) && f (BitVec.ofNat 16 a) != Mem.unlisted
        then some (f (BitVec.ofNat 16 a)) else none) ?_ 65536 0 (by omega)
  intro a v h
  split at h <;> simp_all

/-- It reads as the function at the addresses kept. -/
theorem Mem.read_ofFunction (keep : Word → Bool) (f : Word → Word) (a : Word) (h : keep a = true) :
    (Mem.ofFunction keep f).read a = f a := by
  have hn : BitVec.ofNat 16 a.toNat = a := by simp
  have hlt := a.isLt
  unfold Mem.read
  rw [Mem.ofFunction_eq]
  have := Mem.lookup_filterMap (fun a => if keep (BitVec.ofNat 16 a) && f (BitVec.ofNat 16 a) != Mem.unlisted
        then some (f (BitVec.ofNat 16 a)) else none) a.toNat 65536 0 (Nat.zero_le _) (by omega)
  rw [this, hn, h]
  by_cases hf : f a = Mem.unlisted
  · simp only [hf, bne_self_eq_false, Bool.and_false, Bool.false_eq_true, if_false, Option.getD_none]
    exact Mem.lookup_below (Nat.lt_succ_self _) (Mem.wfFrom_filterMap
      (fun a => if keep (BitVec.ofNat 16 a) && f (BitVec.ofNat 16 a) != Mem.unlisted
        then some (f (BitVec.ofNat 16 a)) else none) (by intro b v hb; split at hb <;> simp_all) _ _ (by omega))
  · simp [hf]

/-- It lists only addresses kept. -/
theorem Mem.mem_ofFunction {keep : Word → Bool} {f : Word → Word} {k : Nat} {v : Word}
    (h : (k, v) ∈ Mem.ofFunction keep f) : keep (BitVec.ofNat 16 k) = true := by
  unfold Mem.ofFunction at h
  obtain ⟨a, -, ha⟩ := List.mem_filterMap.1 h
  split at ha <;> simp_all

end Sys2Proof.Machine
end

