-- ==== Sys2Proof/Laws/State.lean ====
section
/-! SUPPORT. One lemma per field per update of State, true by rfl, and the laws of the register file, so that no
later proof unfolds a record update. -/

namespace Sys2Proof.Machine

/-! ### State.setReg -/

@[simp] theorem State.setReg_regs (s : State) (r : Reg) (v : Word) : (s.setReg r v).regs = s.regs.set r v := rfl
@[simp] theorem State.setReg_pc (s : State) (r : Reg) (v : Word) : (s.setReg r v).pc = s.pc := rfl
@[simp] theorem State.setReg_cond (s : State) (r : Reg) (v : Word) : (s.setReg r v).cond = s.cond := rfl
@[simp] theorem State.setReg_mem (s : State) (r : Reg) (v : Word) : (s.setReg r v).mem = s.mem := rfl
@[simp] theorem State.setReg_run (s : State) (r : Reg) (v : Word) : (s.setReg r v).run = s.run := rfl
@[simp] theorem State.setReg_outcome (s : State) (r : Reg) (v : Word) : (s.setReg r v).outcome = s.outcome := rfl
@[simp] theorem State.setReg_consoleIn (s : State) (r : Reg) (v : Word) : (s.setReg r v).consoleIn = s.consoleIn := rfl
@[simp] theorem State.setReg_output (s : State) (r : Reg) (v : Word) : (s.setReg r v).output = s.output := rfl
@[simp] theorem State.setReg_deviceIn (s : State) (r : Reg) (v : Word) : (s.setReg r v).deviceIn = s.deviceIn := rfl
@[simp] theorem State.setReg_drawCount (s : State) (r : Reg) (v : Word) : (s.setReg r v).drawCount = s.drawCount := rfl
@[simp] theorem State.setReg_params (s : State) (r : Reg) (v : Word) : (s.setReg r v).params = s.params := rfl

/-! ### State.setPc -/

@[simp] theorem State.setPc_regs (s : State) (t : Word) : (s.setPc t).regs = s.regs := rfl
@[simp] theorem State.setPc_pc (s : State) (t : Word) : (s.setPc t).pc = t := rfl
@[simp] theorem State.setPc_cond (s : State) (t : Word) : (s.setPc t).cond = s.cond := rfl
@[simp] theorem State.setPc_mem (s : State) (t : Word) : (s.setPc t).mem = s.mem := rfl
@[simp] theorem State.setPc_run (s : State) (t : Word) : (s.setPc t).run = s.run := rfl
@[simp] theorem State.setPc_outcome (s : State) (t : Word) : (s.setPc t).outcome = s.outcome := rfl
@[simp] theorem State.setPc_consoleIn (s : State) (t : Word) : (s.setPc t).consoleIn = s.consoleIn := rfl
@[simp] theorem State.setPc_output (s : State) (t : Word) : (s.setPc t).output = s.output := rfl
@[simp] theorem State.setPc_deviceIn (s : State) (t : Word) : (s.setPc t).deviceIn = s.deviceIn := rfl
@[simp] theorem State.setPc_drawCount (s : State) (t : Word) : (s.setPc t).drawCount = s.drawCount := rfl
@[simp] theorem State.setPc_params (s : State) (t : Word) : (s.setPc t).params = s.params := rfl
@[simp] theorem State.setPc_reg (s : State) (t : Word) (q : Reg) : (s.setPc t).reg q = s.reg q := rfl

/-! ### State.setcc -/

@[simp] theorem State.setcc_regs (s : State) (v : Word) : (s.setcc v).regs = s.regs := rfl
@[simp] theorem State.setcc_pc (s : State) (v : Word) : (s.setcc v).pc = s.pc := rfl
@[simp] theorem State.setcc_cond (s : State) (v : Word) : (s.setcc v).cond = condOf v := rfl
@[simp] theorem State.setcc_mem (s : State) (v : Word) : (s.setcc v).mem = s.mem := rfl
@[simp] theorem State.setcc_run (s : State) (v : Word) : (s.setcc v).run = s.run := rfl
@[simp] theorem State.setcc_outcome (s : State) (v : Word) : (s.setcc v).outcome = s.outcome := rfl
@[simp] theorem State.setcc_consoleIn (s : State) (v : Word) : (s.setcc v).consoleIn = s.consoleIn := rfl
@[simp] theorem State.setcc_output (s : State) (v : Word) : (s.setcc v).output = s.output := rfl
@[simp] theorem State.setcc_deviceIn (s : State) (v : Word) : (s.setcc v).deviceIn = s.deviceIn := rfl
@[simp] theorem State.setcc_drawCount (s : State) (v : Word) : (s.setcc v).drawCount = s.drawCount := rfl
@[simp] theorem State.setcc_params (s : State) (v : Word) : (s.setcc v).params = s.params := rfl
@[simp] theorem State.setcc_reg (s : State) (v : Word) (q : Reg) : (s.setcc v).reg q = s.reg q := rfl

/-! ### State.emit -/

@[simp] theorem State.emit_regs (s : State) (bs : List Byte) : (s.emit bs).regs = s.regs := rfl
@[simp] theorem State.emit_pc (s : State) (bs : List Byte) : (s.emit bs).pc = s.pc := rfl
@[simp] theorem State.emit_cond (s : State) (bs : List Byte) : (s.emit bs).cond = s.cond := rfl
@[simp] theorem State.emit_mem (s : State) (bs : List Byte) : (s.emit bs).mem = s.mem := rfl
@[simp] theorem State.emit_run (s : State) (bs : List Byte) : (s.emit bs).run = s.run := rfl
@[simp] theorem State.emit_outcome (s : State) (bs : List Byte) : (s.emit bs).outcome = s.outcome := rfl
@[simp] theorem State.emit_consoleIn (s : State) (bs : List Byte) : (s.emit bs).consoleIn = s.consoleIn := rfl
@[simp] theorem State.emit_output (s : State) (bs : List Byte) : (s.emit bs).output = s.output ++ bs.map .console := rfl
@[simp] theorem State.emit_deviceIn (s : State) (bs : List Byte) : (s.emit bs).deviceIn = s.deviceIn := rfl
@[simp] theorem State.emit_drawCount (s : State) (bs : List Byte) : (s.emit bs).drawCount = s.drawCount := rfl
@[simp] theorem State.emit_params (s : State) (bs : List Byte) : (s.emit bs).params = s.params := rfl
@[simp] theorem State.emit_reg (s : State) (bs : List Byte) (q : Reg) : (s.emit bs).reg q = s.reg q := rfl

/-! ### State.finish -/

@[simp] theorem State.finish_regs (s : State) (o : CoreOutcome) : (s.finish o).regs = s.regs := rfl
@[simp] theorem State.finish_pc (s : State) (o : CoreOutcome) : (s.finish o).pc = s.pc := rfl
@[simp] theorem State.finish_cond (s : State) (o : CoreOutcome) : (s.finish o).cond = s.cond := rfl
@[simp] theorem State.finish_mem (s : State) (o : CoreOutcome) : (s.finish o).mem = s.mem := rfl
@[simp] theorem State.finish_run (s : State) (o : CoreOutcome) : (s.finish o).run = s.run := rfl
@[simp] theorem State.finish_outcome (s : State) (o : CoreOutcome) : (s.finish o).outcome = some o := rfl
@[simp] theorem State.finish_consoleIn (s : State) (o : CoreOutcome) : (s.finish o).consoleIn = s.consoleIn := rfl
@[simp] theorem State.finish_output (s : State) (o : CoreOutcome) : (s.finish o).output = s.output := rfl
@[simp] theorem State.finish_deviceIn (s : State) (o : CoreOutcome) : (s.finish o).deviceIn = s.deviceIn := rfl
@[simp] theorem State.finish_drawCount (s : State) (o : CoreOutcome) : (s.finish o).drawCount = s.drawCount := rfl
@[simp] theorem State.finish_params (s : State) (o : CoreOutcome) : (s.finish o).params = s.params := rfl
@[simp] theorem State.finish_reg (s : State) (o : CoreOutcome) (q : Reg) : (s.finish o).reg q = s.reg q := rfl

/-! ### State.setConsoleIn -/

@[simp] theorem State.setConsoleIn_regs (s : State) (chars : List Byte) : (s.setConsoleIn chars).regs = s.regs := rfl
@[simp] theorem State.setConsoleIn_pc (s : State) (chars : List Byte) : (s.setConsoleIn chars).pc = s.pc := rfl
@[simp] theorem State.setConsoleIn_cond (s : State) (chars : List Byte) : (s.setConsoleIn chars).cond = s.cond := rfl
@[simp] theorem State.setConsoleIn_mem (s : State) (chars : List Byte) : (s.setConsoleIn chars).mem = s.mem := rfl
@[simp] theorem State.setConsoleIn_run (s : State) (chars : List Byte) : (s.setConsoleIn chars).run = s.run := rfl
@[simp] theorem State.setConsoleIn_outcome (s : State) (chars : List Byte) : (s.setConsoleIn chars).outcome = s.outcome := rfl
@[simp] theorem State.setConsoleIn_consoleIn (s : State) (chars : List Byte) : (s.setConsoleIn chars).consoleIn = chars := rfl
@[simp] theorem State.setConsoleIn_output (s : State) (chars : List Byte) : (s.setConsoleIn chars).output = s.output := rfl
@[simp] theorem State.setConsoleIn_deviceIn (s : State) (chars : List Byte) : (s.setConsoleIn chars).deviceIn = s.deviceIn := rfl
@[simp] theorem State.setConsoleIn_drawCount (s : State) (chars : List Byte) : (s.setConsoleIn chars).drawCount = s.drawCount := rfl
@[simp] theorem State.setConsoleIn_params (s : State) (chars : List Byte) : (s.setConsoleIn chars).params = s.params := rfl
@[simp] theorem State.setConsoleIn_reg (s : State) (chars : List Byte) (q : Reg) : (s.setConsoleIn chars).reg q = s.reg q := rfl

/-! ### State.setRun -/

@[simp] theorem State.setRun_regs (s : State) (r : RunStatus) : (s.setRun r).regs = s.regs := rfl
@[simp] theorem State.setRun_pc (s : State) (r : RunStatus) : (s.setRun r).pc = s.pc := rfl
@[simp] theorem State.setRun_cond (s : State) (r : RunStatus) : (s.setRun r).cond = s.cond := rfl
@[simp] theorem State.setRun_mem (s : State) (r : RunStatus) : (s.setRun r).mem = s.mem := rfl
@[simp] theorem State.setRun_run (s : State) (r : RunStatus) : (s.setRun r).run = r := rfl
@[simp] theorem State.setRun_outcome (s : State) (r : RunStatus) : (s.setRun r).outcome = s.outcome := rfl
@[simp] theorem State.setRun_consoleIn (s : State) (r : RunStatus) : (s.setRun r).consoleIn = s.consoleIn := rfl
@[simp] theorem State.setRun_output (s : State) (r : RunStatus) : (s.setRun r).output = s.output := rfl
@[simp] theorem State.setRun_deviceIn (s : State) (r : RunStatus) : (s.setRun r).deviceIn = s.deviceIn := rfl
@[simp] theorem State.setRun_drawCount (s : State) (r : RunStatus) : (s.setRun r).drawCount = s.drawCount := rfl
@[simp] theorem State.setRun_params (s : State) (r : RunStatus) : (s.setRun r).params = s.params := rfl
@[simp] theorem State.setRun_reg (s : State) (r : RunStatus) (q : Reg) : (s.setRun r).reg q = s.reg q := rfl

/-! ### State.hold -/

@[simp] theorem State.hold_regs (s : State) (svc : InputService) : (s.hold svc).regs = s.regs := rfl
@[simp] theorem State.hold_pc (s : State) (svc : InputService) : (s.hold svc).pc = s.pc := rfl
@[simp] theorem State.hold_cond (s : State) (svc : InputService) : (s.hold svc).cond = s.cond := rfl
@[simp] theorem State.hold_mem (s : State) (svc : InputService) : (s.hold svc).mem = s.mem := rfl
@[simp] theorem State.hold_run (s : State) (svc : InputService) : (s.hold svc).run = .held svc := rfl
@[simp] theorem State.hold_outcome (s : State) (svc : InputService) : (s.hold svc).outcome = none := rfl
@[simp] theorem State.hold_consoleIn (s : State) (svc : InputService) : (s.hold svc).consoleIn = s.consoleIn := rfl
@[simp] theorem State.hold_output (s : State) (svc : InputService) : (s.hold svc).output = s.output := rfl
@[simp] theorem State.hold_deviceIn (s : State) (svc : InputService) : (s.hold svc).deviceIn = s.deviceIn := rfl
@[simp] theorem State.hold_drawCount (s : State) (svc : InputService) : (s.hold svc).drawCount = s.drawCount := rfl
@[simp] theorem State.hold_params (s : State) (svc : InputService) : (s.hold svc).params = s.params := rfl
@[simp] theorem State.hold_reg (s : State) (svc : InputService) (q : Reg) : (s.hold svc).reg q = s.reg q := rfl

/-! ### The register file -/

theorem State.reg_setReg (s : State) (r q : Reg) (v : Word) :
    (s.setReg r v).reg q = if q = r then v else s.reg q := by
  by_cases h : q = r
  · subst h; simp [State.reg, State.setReg]
  · have h' : (r : Nat) ≠ q := fun e => h (Fin.ext e.symm)
    simp [State.reg, State.setReg, h, h']

@[simp] theorem State.reg_setReg_same (s : State) (r : Reg) (v : Word) : (s.setReg r v).reg r = v := by
  simp [State.reg_setReg]

theorem State.reg_setReg_other (s : State) {r q : Reg} (v : Word) (h : q ≠ r) :
    (s.setReg r v).reg q = s.reg q := by
  simp [State.reg_setReg, h]

/-! ### State.saveLink: only the registers can change -/

@[simp] theorem State.saveLink_pc (s : State) : s.saveLink.pc = s.pc := by
  unfold State.saveLink; split <;> rfl
@[simp] theorem State.saveLink_cond (s : State) : s.saveLink.cond = s.cond := by
  unfold State.saveLink; split <;> rfl
@[simp] theorem State.saveLink_mem (s : State) : s.saveLink.mem = s.mem := by
  unfold State.saveLink; split <;> rfl
@[simp] theorem State.saveLink_run (s : State) : s.saveLink.run = s.run := by
  unfold State.saveLink; split <;> rfl
@[simp] theorem State.saveLink_outcome (s : State) : s.saveLink.outcome = s.outcome := by
  unfold State.saveLink; split <;> rfl
@[simp] theorem State.saveLink_consoleIn (s : State) : s.saveLink.consoleIn = s.consoleIn := by
  unfold State.saveLink; split <;> rfl
@[simp] theorem State.saveLink_output (s : State) : s.saveLink.output = s.output := by
  unfold State.saveLink; split <;> rfl
@[simp] theorem State.saveLink_deviceIn (s : State) : s.saveLink.deviceIn = s.deviceIn := by
  unfold State.saveLink; split <;> rfl
@[simp] theorem State.saveLink_drawCount (s : State) : s.saveLink.drawCount = s.drawCount := by
  unfold State.saveLink; split <;> rfl
@[simp] theorem State.saveLink_params (s : State) : s.saveLink.params = s.params := by
  unfold State.saveLink; split <;> rfl

theorem State.saveLink_reg (s : State) (q : Reg) :
    s.saveLink.reg q = if s.params.trapSavesLink = true ∧ q = 7 then s.pc else s.reg q := by
  unfold State.saveLink
  cases s.params.trapSavesLink <;> simp [State.reg_setReg, linkReg]

end Sys2Proof.Machine
end

