-- ==== Sys2Proof/Laws/Ops.lean ====
section
/-! SUPPORT. What each shared operation can do, said once: reads and writes of the memory port, the input wait, the
string loop, the fetch loop's reaction, and that every handler answers a next state. -/

namespace Sys2Proof.Machine

/-! ### The memory port -/

@[simp] theorem State.memRead_regs (s : State) (a : Word) : (s.memRead a).2.regs = s.regs := by
  unfold State.memRead State.draw; split <;> (try split) <;> rfl
@[simp] theorem State.memRead_pc (s : State) (a : Word) : (s.memRead a).2.pc = s.pc := by
  unfold State.memRead State.draw; split <;> (try split) <;> rfl
@[simp] theorem State.memRead_cond (s : State) (a : Word) : (s.memRead a).2.cond = s.cond := by
  unfold State.memRead State.draw; split <;> (try split) <;> rfl
@[simp] theorem State.memRead_mem (s : State) (a : Word) : (s.memRead a).2.mem = s.mem := by
  unfold State.memRead State.draw; split <;> (try split) <;> rfl
@[simp] theorem State.memRead_run (s : State) (a : Word) : (s.memRead a).2.run = s.run := by
  unfold State.memRead State.draw; split <;> (try split) <;> rfl
@[simp] theorem State.memRead_outcome (s : State) (a : Word) : (s.memRead a).2.outcome = s.outcome := by
  unfold State.memRead State.draw; split <;> (try split) <;> rfl
@[simp] theorem State.memRead_consoleIn (s : State) (a : Word) : (s.memRead a).2.consoleIn = s.consoleIn := by
  unfold State.memRead State.draw; split <;> (try split) <;> rfl
@[simp] theorem State.memRead_output (s : State) (a : Word) : (s.memRead a).2.output = s.output := by
  unfold State.memRead State.draw; split <;> (try split) <;> rfl
@[simp] theorem State.memRead_params (s : State) (a : Word) : (s.memRead a).2.params = s.params := by
  unfold State.memRead State.draw; split <;> (try split) <;> rfl
@[simp] theorem State.memRead_reg (s : State) (a : Word) (q : Reg) : (s.memRead a).2.reg q = s.reg q := by
  simp [State.reg]

/-- A read is one of the three cases of `ReadGives`. -/
theorem State.memRead_gives (s : State) (a : Word) : ReadGives s a (s.memRead a).1 (s.memRead a).2 := by
  unfold State.memRead State.draw ReadGives
  by_cases h : s.params.inDevice a = true
  · rw [if_pos h]
    cases hd : s.deviceIn with
    | nil => exact .inr (.inr ⟨h, rfl, rfl, rfl⟩)
    | cons v rest => exact .inr (.inl ⟨h, rest, rfl, rfl⟩)
  · rw [if_neg h]
    exact .inl ⟨by simpa using h, rfl, rfl⟩

/-- And `ReadGives` says what the read answers. -/
theorem State.memRead_of_gives {s s' : State} {a v : Word} (h : ReadGives s a v s') : s.memRead a = (v, s') := by
  unfold State.memRead State.draw
  obtain ⟨h, rfl, rfl⟩ | ⟨h, rest, hd, rfl⟩ | ⟨h, hd, rfl, rfl⟩ := h <;> simp [*]

theorem State.memRead_plain {s : State} {a : Word} (h : s.params.inDevice a = false) :
    s.memRead a = (s.mem.read a, s) := State.memRead_of_gives (.inl ⟨h, rfl, rfl⟩)

@[simp] theorem State.memWrite_regs (s : State) (a v : Word) : (s.memWrite a v).regs = s.regs := by
  unfold State.memWrite; split <;> rfl
@[simp] theorem State.memWrite_pc (s : State) (a v : Word) : (s.memWrite a v).pc = s.pc := by
  unfold State.memWrite; split <;> rfl
@[simp] theorem State.memWrite_cond (s : State) (a v : Word) : (s.memWrite a v).cond = s.cond := by
  unfold State.memWrite; split <;> rfl
@[simp] theorem State.memWrite_run (s : State) (a v : Word) : (s.memWrite a v).run = s.run := by
  unfold State.memWrite; split <;> rfl
@[simp] theorem State.memWrite_outcome (s : State) (a v : Word) : (s.memWrite a v).outcome = s.outcome := by
  unfold State.memWrite; split <;> rfl
@[simp] theorem State.memWrite_consoleIn (s : State) (a v : Word) : (s.memWrite a v).consoleIn = s.consoleIn := by
  unfold State.memWrite; split <;> rfl
@[simp] theorem State.memWrite_deviceIn (s : State) (a v : Word) : (s.memWrite a v).deviceIn = s.deviceIn := by
  unfold State.memWrite; split <;> rfl
@[simp] theorem State.memWrite_drawCount (s : State) (a v : Word) : (s.memWrite a v).drawCount = s.drawCount := by
  unfold State.memWrite; split <;> rfl
@[simp] theorem State.memWrite_params (s : State) (a v : Word) : (s.memWrite a v).params = s.params := by
  unfold State.memWrite; split <;> rfl
@[simp] theorem State.memWrite_reg (s : State) (a v : Word) (q : Reg) : (s.memWrite a v).reg q = s.reg q := by
  simp [State.reg]

theorem State.memWrite_plain {s : State} {a : Word} (h : s.params.inDevice a = false) (v : Word) :
    s.memWrite a v = { s with mem := s.mem.write a v } := by simp [State.memWrite, h]

theorem State.memWrite_device {s : State} {a : Word} (h : s.params.inDevice a = true) (v : Word) :
    s.memWrite a v = { s with output := s.output ++ [.device a v] } := by simp [State.memWrite, h]

/-- The memory port keeps the memory canonical. -/
theorem State.memWrite_wf {s : State} (h : s.mem.wf = true) (a v : Word) : (s.memWrite a v).mem.wf = true := by
  unfold State.memWrite
  split
  · exact h
  · exact Mem.wf_write h a v

/-- The memory port lists no cell of the device region. -/
theorem State.memWrite_outside {s : State} (h : s.MemOutsideDevice) (a v : Word) :
    (s.memWrite a v).MemOutsideDevice := by
  unfold State.memWrite
  split
  · exact h
  · rename_i ha
    intro k x hk
    rcases Mem.mem_update hk with rfl | hk
    · simpa using ha
    · exact h k x hk

/-! ### The wait for input -/

theorem State.awaitInput_nil {s : State} (h : s.consoleIn = []) (svc : InputService) :
    s.awaitInput svc = s.hold svc := by simp [State.awaitInput, h]

theorem State.awaitInput_cons {s : State} {c : Byte} {rest : List Byte} (h : s.consoleIn = c :: rest)
    (svc : InputService) :
    s.awaitInput svc = (s.setConsoleIn rest).finishInput svc c := by simp [State.awaitInput, h]

@[simp] theorem State.finishInput_pc (s : State) (svc : InputService) (c : Byte) :
    (s.finishInput svc c).pc = s.pc := by simp [State.finishInput]
@[simp] theorem State.finishInput_cond (s : State) (svc : InputService) (c : Byte) :
    (s.finishInput svc c).cond = s.cond := by simp [State.finishInput]
@[simp] theorem State.finishInput_mem (s : State) (svc : InputService) (c : Byte) :
    (s.finishInput svc c).mem = s.mem := by simp [State.finishInput]
@[simp] theorem State.finishInput_run (s : State) (svc : InputService) (c : Byte) :
    (s.finishInput svc c).run = s.run := by simp [State.finishInput]
@[simp] theorem State.finishInput_consoleIn (s : State) (svc : InputService) (c : Byte) :
    (s.finishInput svc c).consoleIn = s.consoleIn := by simp [State.finishInput]
@[simp] theorem State.finishInput_deviceIn (s : State) (svc : InputService) (c : Byte) :
    (s.finishInput svc c).deviceIn = s.deviceIn := by simp [State.finishInput]
@[simp] theorem State.finishInput_drawCount (s : State) (svc : InputService) (c : Byte) :
    (s.finishInput svc c).drawCount = s.drawCount := by simp [State.finishInput]
@[simp] theorem State.finishInput_params (s : State) (svc : InputService) (c : Byte) :
    (s.finishInput svc c).params = s.params := by simp [State.finishInput]
@[simp] theorem State.finishInput_outcome (s : State) (svc : InputService) (c : Byte) :
    (s.finishInput svc c).outcome = some .completed := rfl

theorem State.finishInput_reg (s : State) (svc : InputService) (c : Byte) (q : Reg) :
    (s.finishInput svc c).reg q = if q = 0 then BitVec.ofNat 16 c.toNat else s.reg q := by
  have hc : zext16 c = BitVec.ofNat 16 c.toNat := by
    apply BitVec.eq_of_toNat_eq
    simp [zext16]
  simp [State.finishInput, State.reg_setReg, hc]

theorem State.finishInput_output (s : State) (svc : InputService) (c : Byte) :
    (s.finishInput svc c).output = s.output ++ (echoBytes s.params c svc).map .console := by
  simp [State.finishInput]

/-- Trap entry is a service that outputs nothing and changes no register beside the link (R181, R215). -/
theorem State.saveLink_done (s : State) : ServiceDone [] [] s s.saveLink where
  link := by simp [State.saveLink_reg]
  regs := by
    intro r hr
    simp at hr
    simp [State.saveLink_reg, hr]
  output := by simp
  cond := by simp
  pc := by simp
  cells := fun _ => by simp
  run := by simp
  params := by simp

/-- A trap that is held on input wrote its link first. -/
theorem State.saveLink_saved {s : State} (h : s.params.trapSavesLink = true) : s.saveLink.reg 7 = s.saveLink.pc := by
  simp [State.saveLink_reg, h]

/-- A held machine with a character completes its service; one without is unchanged (R191). -/
theorem State.resume_cons {s : State} {c : Byte} {rest : List Byte} (h : s.consoleIn = c :: rest)
    (svc : InputService) :
    s.resume svc = ((s.setRun .running).setConsoleIn rest).finishInput svc c := by
  simp [State.resume, State.awaitInput, h]

theorem State.resume_nil {s : State} (h : s.consoleIn = []) (svc : InputService) : s.resume svc = s := by
  simp [State.resume, h]

/-! ### The string loop -/

theorem State.stringLoop_regs (bytes : Word → List Byte) :
    ∀ (n : Nat) (a : Word) (s : State), (State.stringLoop bytes n a s).regs = s.regs
  | 0, _, _ => rfl
  | n + 1, a, s => by
    unfold State.stringLoop
    split
    · simp
    · rw [State.stringLoop_regs bytes n]; simp

theorem State.stringLoop_pc (bytes : Word → List Byte) :
    ∀ (n : Nat) (a : Word) (s : State), (State.stringLoop bytes n a s).pc = s.pc
  | 0, _, _ => rfl
  | n + 1, a, s => by
    unfold State.stringLoop
    split
    · simp
    · rw [State.stringLoop_pc bytes n]; simp

theorem State.stringLoop_cond (bytes : Word → List Byte) :
    ∀ (n : Nat) (a : Word) (s : State), (State.stringLoop bytes n a s).cond = s.cond
  | 0, _, _ => rfl
  | n + 1, a, s => by
    unfold State.stringLoop
    split
    · simp
    · rw [State.stringLoop_cond bytes n]; simp

theorem State.stringLoop_mem (bytes : Word → List Byte) :
    ∀ (n : Nat) (a : Word) (s : State), (State.stringLoop bytes n a s).mem = s.mem
  | 0, _, _ => rfl
  | n + 1, a, s => by
    unfold State.stringLoop
    split
    · simp
    · rw [State.stringLoop_mem bytes n]; simp

theorem State.stringLoop_run (bytes : Word → List Byte) :
    ∀ (n : Nat) (a : Word) (s : State), (State.stringLoop bytes n a s).run = s.run
  | 0, _, _ => rfl
  | n + 1, a, s => by
    unfold State.stringLoop
    split
    · simp
    · rw [State.stringLoop_run bytes n]; simp

theorem State.stringLoop_consoleIn (bytes : Word → List Byte) :
    ∀ (n : Nat) (a : Word) (s : State), (State.stringLoop bytes n a s).consoleIn = s.consoleIn
  | 0, _, _ => rfl
  | n + 1, a, s => by
    unfold State.stringLoop
    split
    · simp
    · rw [State.stringLoop_consoleIn bytes n]; simp

theorem State.stringLoop_params (bytes : Word → List Byte) :
    ∀ (n : Nat) (a : Word) (s : State), (State.stringLoop bytes n a s).params = s.params
  | 0, _, _ => rfl
  | n + 1, a, s => by
    unfold State.stringLoop
    split
    · simp
    · rw [State.stringLoop_params bytes n]; simp

/-- The loop ends with `Continue` or with `Fault(UnterminatedString)` (R185–R187). -/
theorem State.stringLoop_outcome (bytes : Word → List Byte) :
    ∀ (n : Nat) (a : Word) (s : State), (State.stringLoop bytes n a s).outcome = some .completed ∨
      (State.stringLoop bytes n a s).outcome = some (.fault .unterminatedString)
  | 0, _, _ => .inr rfl
  | n + 1, a, s => by
    unfold State.stringLoop
    split
    · exact .inl rfl
    · exact State.stringLoop_outcome bytes n _ _

/-! ### The fetch loop -/

@[simp] theorem State.react_regs (s : State) : s.react.regs = s.regs := by
  unfold State.react; split <;> (try split) <;> rfl
@[simp] theorem State.react_pc (s : State) : s.react.pc = s.pc := by
  unfold State.react; split <;> (try split) <;> rfl
@[simp] theorem State.react_cond (s : State) : s.react.cond = s.cond := by
  unfold State.react; split <;> (try split) <;> rfl
@[simp] theorem State.react_mem (s : State) : s.react.mem = s.mem := by
  unfold State.react; split <;> (try split) <;> rfl
@[simp] theorem State.react_outcome (s : State) : s.react.outcome = s.outcome := by
  unfold State.react; split <;> (try split) <;> rfl
@[simp] theorem State.react_consoleIn (s : State) : s.react.consoleIn = s.consoleIn := by
  unfold State.react; split <;> (try split) <;> rfl
@[simp] theorem State.react_output (s : State) : s.react.output = s.output := by
  unfold State.react; split <;> (try split) <;> rfl
@[simp] theorem State.react_deviceIn (s : State) : s.react.deviceIn = s.deviceIn := by
  unfold State.react; split <;> (try split) <;> rfl
@[simp] theorem State.react_drawCount (s : State) : s.react.drawCount = s.drawCount := by
  unfold State.react; split <;> (try split) <;> rfl
@[simp] theorem State.react_params (s : State) : s.react.params = s.params := by
  unfold State.react; split <;> (try split) <;> rfl

theorem State.react_of_none {s : State} (h : s.outcome = none) : s.react = s := by simp [State.react, h]

theorem State.react_of_some {s : State} {o : CoreOutcome} (h : s.outcome = some o) :
    s.react = match stopStatus s.params o with
      | none => s
      | some r => s.setRun r := by
  cases hr : stopStatus s.params o <;> simp [State.react, h, hr]

/-- The state a running machine executes its fetched word in. -/
theorem State.fetch_of_gives {s s1 : State} {w : Word} (h : ReadGives s s.pc w s1) :
    s.fetch = (w, s1.setPc (s.pc + 1)) := by
  simp [State.fetch, State.memRead_of_gives h]

theorem step_running {s : State} (h : s.run = .running) : step s = reactTo (execute s.fetch.1 s.fetch.2) := by
  unfold step; rw [h]

theorem step_held {s : State} {svc : InputService} (h : s.run = .held svc) : step s = .next (s.resume svc) := by
  unfold step; rw [h]

theorem step_halted {s : State} (h : s.run = .halted) : step s = .next s := by
  unfold step; rw [h]

theorem step_faulted {s : State} {reason : Fault} (h : s.run = .faulted reason) : step s = .fault reason := by
  unfold step; rw [h]

end Sys2Proof.Machine
end

