-- ==== Sys2Proof/Laws/Launch.lean ====
section
/-! SUPPORT. The launch: the state after reset is one launch state, loading an image keeps memory canonical, and the
host's placement of a word is what the next fetch reads. -/

namespace Sys2Proof.Machine

/-- The state after reset is the launch with default parameters and the values of notes/assumptions/2.md and 4.md. -/
theorem State.reset_eq_launch :
    State.reset = State.launch Params.default
      { entry := 0x3000, initRegs := #v[0, 0, 0, 0, 0, 0, 0, 0], initCond := .z, initMem := fun _ => 0 } [] [] := by
  have h : Mem.ofFunction (fun a => !Params.default.inDevice a) (fun _ => 0) = [] := by
    simp [Mem.ofFunction, Mem.unlisted]
  unfold State.launch
  rw [h]
  rfl

/-- Loading an image keeps the memory canonical. -/
theorem State.loadImage_wf : ∀ (ws : List Word) (a : Word) (s : State), s.mem.wf = true →
    (State.loadImage a ws s).mem.wf = true
  | [], _, _, h => h
  | w :: ws, a, s, h => by
    unfold State.loadImage
    refine State.loadImage_wf ws _ _ ?_
    split
    · exact h
    · exact Mem.wf_write h a w

theorem State.released_mem (s : State) : s.released.mem = s.mem := by
  unfold State.released; split <;> rfl

/-- The word placed is the word fetched. -/
theorem State.fetch_withFetchWord {s : State} (h : s.mem.wf = true) (nbits w : Nat) :
    (s.withFetchWord nbits w).fetch.1 = tableWord nbits w := by
  have hw : s.released.mem.wf = true := by rw [State.released_mem]; exact h
  unfold State.withFetchWord State.placeFetched State.fetch
  generalize s.released = u at hw ⊢
  by_cases hd : u.params.inDevice u.pc = true
  · simp [hd, State.memRead, State.draw]
  · simp [hd, State.memRead, Mem.read_write hw]

/-- And the machine is running, so that the next step fetches it. -/
theorem State.run_withFetchWord (s : State) (nbits w : Nat) : (s.withFetchWord nbits w).run = .running := by
  unfold State.withFetchWord State.placeFetched State.released
  split <;> split <;> simp_all

end Sys2Proof.Machine
end

