-- ==== Sys2Proof/Laws/PerInstr.lean ====
section
/-! SUPPORT. The statements made for each instruction: the family OpcodeField, that the encoded word of a
well-formed instruction has the instruction's opcode in bits 15–12 (spec/30_encoding.md R62). -/

namespace Sys2Proof.Laws.OpcodeField

/-- Bits 15–12 of the encoded word are the opcode's value. -/
def Statement (i : Instr) : Prop := i.wf = true → field (encode i) 12 4 = i.opcode.bits

/-- A concatenation of 16 bits that starts with 4 bits has them as its top field. -/
theorem top_field (b : BitVec 4) (rest : BitVec 12) : field (b ++ rest) 12 4 = b := by
  have h := rest.isLt
  apply BitVec.eq_of_toNat_eq
  rw [field_toNat]
  simp only [toNat_append_add]
  omega

theorem of_toNat {w : Word} {b : BitVec 4} (h : w.toNat / 4096 = b.toNat) : field w 12 4 = b := by
  apply BitVec.eq_of_toNat_eq
  rw [field_toNat]
  omega

theorem opr (op : OpCode) (dr sr1 sr2 : Reg) : field (encodeOpr op dr sr1 sr2) 12 4 = op.bits := by
  apply of_toNat
  simp only [encodeOpr, toNat_append_add, regBits_toNat]
  simp
  omega

theorem opi (op : OpCode) (dr sr1 : Reg) (imm : Word) : field (encodeOpi op dr sr1 imm) 12 4 = op.bits := by
  apply of_toNat
  simp only [encodeOpi, toNat_append_add, regBits_toNat, lowBits_toNat]
  simp
  omega

theorem pcr (op : OpCode) (r : Reg) (off : Word) : field (encodePcr op r off) 12 4 = op.bits := by
  apply of_toNat
  simp only [encodePcr, toNat_append_add, regBits_toNat, lowBits_toNat]
  omega

theorem bof (op : OpCode) (r base : Reg) (off : Word) : field (encodeBof op r base off) 12 4 = op.bits := by
  apply of_toNat
  simp only [encodeBof, toNat_append_add, regBits_toNat, lowBits_toNat]
  omega

theorem addR (dr sr1 sr2 : Reg) : Statement (.addR dr sr1 sr2) := fun _ => opr _ _ _ _
theorem addI (dr sr1 : Reg) (imm : Word) : Statement (.addI dr sr1 imm) := fun _ => opi _ _ _ _
theorem andR (dr sr1 sr2 : Reg) : Statement (.andR dr sr1 sr2) := fun _ => opr _ _ _ _
theorem andI (dr sr1 : Reg) (imm : Word) : Statement (.andI dr sr1 imm) := fun _ => opi _ _ _ _

theorem notR (dr sr : Reg) : Statement (.notR dr sr) := fun _ => by
  apply of_toNat
  simp only [encode, toNat_append_add, regBits_toNat, Instr.opcode, OpCode.bits]
  simp
  omega

theorem br (n z p : Bool) (off : Word) : Statement (.br n z p off) := fun _ => by
  apply of_toNat
  simp only [encode, toNat_append_add, lowBits_toNat, ofBool_toNat, Instr.opcode, OpCode.bits]
  have hn := n.toNat_le; have hz := z.toNat_le; have hp := p.toNat_le
  simp
  omega

theorem jmp (base : Reg) : Statement (.jmp base) := fun _ => by
  apply of_toNat
  simp only [encode, toNat_append_add, regBits_toNat, Instr.opcode, OpCode.bits]
  simp
  omega

theorem jsr (off : Word) : Statement (.jsr off) := fun _ => by
  apply of_toNat
  simp only [encode, toNat_append_add, lowBits_toNat, Instr.opcode, OpCode.bits]
  simp
  omega

theorem jsrr (base : Reg) : Statement (.jsrr base) := fun _ => by
  apply of_toNat
  simp only [encode, toNat_append_add, regBits_toNat, Instr.opcode, OpCode.bits]
  simp
  omega

theorem ld (dr : Reg) (off : Word) : Statement (.ld dr off) := fun _ => pcr _ _ _
theorem ldi (dr : Reg) (off : Word) : Statement (.ldi dr off) := fun _ => pcr _ _ _
theorem ldr (dr base : Reg) (off : Word) : Statement (.ldr dr base off) := fun _ => bof _ _ _ _
theorem lea (dr : Reg) (off : Word) : Statement (.lea dr off) := fun _ => pcr _ _ _
theorem st (sr : Reg) (off : Word) : Statement (.st sr off) := fun _ => pcr _ _ _
theorem sti (sr : Reg) (off : Word) : Statement (.sti sr off) := fun _ => pcr _ _ _
theorem str (sr base : Reg) (off : Word) : Statement (.str sr base off) := fun _ => bof _ _ _ _

theorem trap (vect : Byte) : Statement (.trap vect) := fun _ => by
  apply of_toNat
  simp only [encode, toNat_append_add, Instr.opcode, OpCode.bits]
  have := vect.isLt
  simp
  omega

theorem rti (raw : Word) : Statement (.rti raw) := fun h => by
  simpa [Instr.wf, field, encode, Instr.opcode, OpCode.bits] using h

theorem res (raw : Word) : Statement (.res raw) := fun h => by
  simpa [Instr.wf, field, encode, Instr.opcode, OpCode.bits] using h

end Sys2Proof.Laws.OpcodeField
end

