-- ==== Sys2Proof/Laws/Strings.lean ====
section
/-! SUPPORT. The loop of PUTS and PUTSP over a run of words (spec/44_trap.md R185–R187): what it outputs and where
it goes on, for every run of non-zero words, in memory or drawn from the environment. -/

namespace Sys2Proof.Machine

/-- A read changes the inputs alone, and depends on the memory, the inputs and the parameters alone. -/
theorem ReadGives.congr {s s1 u : State} {a v : Word} (h : ReadGives s a v s1) (hp : u.params = s.params)
    (hm : u.mem = s.mem) (hd : u.deviceIn = s.deviceIn) (hc : u.drawCount = s.drawCount) :
    ReadGives u a v { u with deviceIn := s1.deviceIn, drawCount := s1.drawCount } := by
  obtain ⟨h, rfl, rfl⟩ | ⟨h, rest, h2, rfl⟩ | ⟨h, h2, rfl, rfl⟩ := h
  · exact .inl ⟨by rw [hp]; exact h, by rw [hm], by rw [← hd, ← hc]⟩
  · exact .inr (.inl ⟨by rw [hp]; exact h, rest, by rw [hd]; exact h2, by simp [← hc]⟩)
  · exact .inr (.inr ⟨by rw [hp]; exact h, by rw [hd]; exact h2, by rw [hc], by simp [← hd, hc]⟩)

theorem ReadGives.same {s s1 : State} {a v : Word} (h : ReadGives s a v s1) :
    s1.params = s.params ∧ s1.mem = s.mem := by
  obtain ⟨-, -, rfl⟩ | ⟨-, -, -, rfl⟩ | ⟨-, -, -, rfl⟩ := h <;> exact ⟨rfl, rfl⟩

theorem WordsRead.same {s s1 : State} {a : Word} {ws : List Word} (h : WordsRead s a ws s1) :
    s1.params = s.params ∧ s1.mem = s.mem := by
  induction h with
  | nil => exact ⟨rfl, rfl⟩
  | cons hr _ _ ih => exact ⟨ih.1.trans hr.same.1, ih.2.trans hr.same.2⟩

theorem State.stringLoop_succ (bytes : Word → List Byte) (n : Nat) (a : Word) (s : State) :
    State.stringLoop bytes (n + 1) a s = if (s.memRead a).1 = 0 then (s.memRead a).2.finish .completed
      else State.stringLoop bytes n (a + 1) ((s.memRead a).2.emit (bytes (s.memRead a).1)) := rfl

/-- Over a run of non-zero words the loop outputs their bytes and goes on at the address after them. -/
theorem State.stringLoop_words (bytes : Word → List Byte) {s s1 : State} {a : Word} {ws : List Word}
    (h : WordsRead s a ws s1) :
    ∀ (u : State) (n : Nat), u.params = s.params → u.mem = s.mem → u.deviceIn = s.deviceIn →
      u.drawCount = s.drawCount →
      State.stringLoop bytes (n + ws.length) a u =
        State.stringLoop bytes n (a + BitVec.ofNat 16 ws.length)
          { u.emit (ws.flatMap bytes) with deviceIn := s1.deviceIn, drawCount := s1.drawCount } := by
  induction h with
  | nil s a => intro u n _ _ h1 h2; simp [State.emit, ← h1, ← h2]
  | @cons s s1 s2 a v ws hr hv hw ih =>
    intro u n hp hm hd hc
    have hu := State.memRead_of_gives (hr.congr hp hm hd hc)
    have hs := hr.same
    rw [show n + (v :: ws).length = (n + ws.length) + 1 by simp; omega]
    rw [State.stringLoop_succ, hu]
    simp only [hv, if_false]
    refine (ih _ n ?_ ?_ ?_ ?_).trans ?_
    · simp [hp, hs]
    · simp [hm, hs]
    · rfl
    · rfl
    congr 1
    · rw [List.length_cons, BitVec.ofNat_add, BitVec.add_assoc, BitVec.add_comm (BitVec.ofNat 16 ws.length)]
      rfl
    · simp [State.emit, List.append_assoc]

/-- At the terminator the loop ends with `Continue`. -/
theorem State.stringLoop_terminator (bytes : Word → List Byte) {u u' : State} {a : Word} (h : ReadGives u a 0 u')
    (n : Nat) : State.stringLoop bytes (n + 1) a u = u'.finish .completed := by
  rw [State.stringLoop_succ, State.memRead_of_gives h]
  simp

/-- 65536 non-zero words from R0 on end PUTS with the fault. -/
theorem State.trapPuts_unterminated {s s1 : State} {ws : List Word} (h : WordsRead s (s.reg 0) ws s1)
    (hl : ws.length = 65536) : s.trapPuts.react.run = .faulted .unterminatedString := by
  have hw := State.stringLoop_words putsBytes h s 0 rfl rfl rfl rfl
  rw [hl, Nat.zero_add] at hw
  rw [State.trapPuts, hw]
  rfl

end Sys2Proof.Machine
end

