-- ==== Sys2Proof/Machine/Assembly.lean ====
section
/-! DEFINITION. The assembler notation of spec/30_encoding.md R80, in which an offset is shown as a number. No
state depends on it. -/

namespace Sys2Proof

/-- `R0` to `R7`. -/
def Reg.toAsm (r : Reg) : String := "R" ++ toString r.val

/-- `#decimal`, the signed value. -/
def immAsm (v : Word) : String := "#" ++ toString v.toInt

/-- One hexadecimal digit, in capitals. -/
def hexDigit (n : Nat) : String :=
  ["0", "1", "2", "3", "4", "5", "6", "7", "8", "9", "A", "B", "C", "D", "E", "F"].getD n ""

/-- `xVV`, two hexadecimal digits. -/
def vectAsm (v : Byte) : String := "x" ++ hexDigit (v.toNat / 16) ++ hexDigit (v.toNat % 16)

/-- The condition suffix of BR. -/
def brSuffix (n z p : Bool) : String :=
  (if n then "n" else "") ++ (if z then "z" else "") ++ (if p then "p" else "")

/-- An instruction in the forms of R80. R80 writes no form for the reserved opcodes, nor for BR with no flag
requested, whose word is `NOP` when its offset is 0 (R81). -/
def Instr.toAsm : Instr → Option String
  | .addR dr sr1 sr2 => some ("ADD " ++ Reg.toAsm dr ++ ", " ++ Reg.toAsm sr1 ++ ", " ++ Reg.toAsm sr2)
  | .addI dr sr1 imm => some ("ADD " ++ Reg.toAsm dr ++ ", " ++ Reg.toAsm sr1 ++ ", " ++ immAsm imm)
  | .andR dr sr1 sr2 => some ("AND " ++ Reg.toAsm dr ++ ", " ++ Reg.toAsm sr1 ++ ", " ++ Reg.toAsm sr2)
  | .andI dr sr1 imm => some ("AND " ++ Reg.toAsm dr ++ ", " ++ Reg.toAsm sr1 ++ ", " ++ immAsm imm)
  | .notR dr sr => some ("NOT " ++ Reg.toAsm dr ++ ", " ++ Reg.toAsm sr)
  | .br n z p off =>
    if n || z || p then some ("BR" ++ brSuffix n z p ++ " " ++ immAsm off)
    else if off = 0 then some "NOP" else none
  | .jmp base => some ("JMP " ++ Reg.toAsm base)
  | .jsr off => some ("JSR " ++ immAsm off)
  | .jsrr base => some ("JSRR " ++ Reg.toAsm base)
  | .ld dr off => some ("LD " ++ Reg.toAsm dr ++ ", " ++ immAsm off)
  | .ldi dr off => some ("LDI " ++ Reg.toAsm dr ++ ", " ++ immAsm off)
  | .ldr dr base off => some ("LDR " ++ Reg.toAsm dr ++ ", " ++ Reg.toAsm base ++ ", " ++ immAsm off)
  | .lea dr off => some ("LEA " ++ Reg.toAsm dr ++ ", " ++ immAsm off)
  | .st sr off => some ("ST " ++ Reg.toAsm sr ++ ", " ++ immAsm off)
  | .sti sr off => some ("STI " ++ Reg.toAsm sr ++ ", " ++ immAsm off)
  | .str sr base off => some ("STR " ++ Reg.toAsm sr ++ ", " ++ Reg.toAsm base ++ ", " ++ immAsm off)
  | .trap vect => some ("TRAP " ++ vectAsm vect)
  | .rti _ => none
  | .res _ => none

end Sys2Proof
end

