-- ==== Sys2Proof/Tests/Slice0.lean ====
section
/-! SUPPORT. Tests. Expected results are the vectors of spec/95_test_vectors.md (named S, A, B, J, L, T, X as there)
or words written out from the formats of spec/30_encoding.md R74. Then a witness for the hypotheses of each
statement that has some. -/

namespace Sys2Proof.Tests

open Sys2Proof.Machine

/-! ### Well-formedness: an ill-formed term for each check -/

theorem test_wf_imm5_high : (Instr.addI 0 0 16).wf = false := by decide
theorem test_wf_imm5_low : (Instr.andI 0 0 0xFFEF).wf = false := by decide
theorem test_wf_offset6_high : (Instr.ldr 0 0 32).wf = false := by decide
theorem test_wf_offset6_low : (Instr.str 0 0 0xFFDF).wf = false := by decide
theorem test_wf_offset9_high : (Instr.br true true true 256).wf = false := by decide
theorem test_wf_offset9_low : (Instr.ld 0 0xFEFF).wf = false := by decide
theorem test_wf_offset9_each : ((Instr.ldi 0 256).wf, (Instr.lea 0 256).wf, (Instr.st 0 256).wf, (Instr.sti 0 256).wf) =
    (false, false, false, false) := by decide
theorem test_wf_offset11_high : (Instr.jsr 1024).wf = false := by decide
theorem test_wf_offset11_low : (Instr.jsr 0xFBFF).wf = false := by decide
theorem test_wf_rti_opcode : (Instr.rti 0xD000).wf = false := by decide
theorem test_wf_res_opcode : (Instr.res 0x8000).wf = false := by decide
theorem test_wf_accepts_edges : ((Instr.addI 0 0 15).wf, (Instr.addI 0 0 0xFFF0).wf, (Instr.jsr 0xFC00).wf, (Instr.jsr 1023).wf) =
    (true, true, true, true) := by decide

/-! ### Decoding: words from the vectors, and the two readings of a mode bit -/

theorem test_decode_add_reg : decode 0x1642 = .addR 3 1 2 := by decide
theorem test_decode_add_imm : decode 0x147D = .addI 2 1 0xFFFD := by decide
theorem test_decode_and_reg : decode 0x5946 = .andR 4 5 6 := by decide
theorem test_decode_and_imm : decode 0x5A70 = .andI 5 1 0xFFF0 := by decide
theorem test_decode_not : decode 0x92BF = .notR 1 2 := by decide
theorem test_decode_br : decode 0x0403 = .br false true false 3 := by decide
theorem test_decode_jmp : decode 0xC080 = .jmp 2 := by decide
theorem test_decode_jsr : decode 0x4C00 = .jsr 0xFC00 := by decide
theorem test_decode_jsrr : decode 0x40C0 = .jsrr 3 := by decide
theorem test_decode_ld : decode 0x2205 = .ld 1 5 := by decide
theorem test_decode_ldi : decode 0xA602 = .ldi 3 2 := by decide
theorem test_decode_ldr : decode 0x697F = .ldr 4 5 0xFFFF := by decide
theorem test_decode_lea : decode 0xE1FF = .lea 0 0xFFFF := by decide
theorem test_decode_st : decode 0x3203 = .st 1 3 := by decide
theorem test_decode_sti : decode 0xB404 = .sti 2 4 := by decide
theorem test_decode_str : decode 0x7780 = .str 3 6 0 := by decide
theorem test_decode_trap : decode 0xF125 = .trap 0x25 := by decide
theorem test_decode_rti : decode 0x8000 = .rti 0x8000 := by decide
theorem test_decode_res : decode 0xDFFF = .res 0xDFFF := by decide
theorem test_decode_table_word : decodeTableWord 16 0x1249 = some (.addR 1 1 1) := by decide
theorem test_strict_rejects : decodeChecked true 0x1249 = .error (.illegalEncoding 0x1249) := by decide
theorem test_encode_ret : encode (.jmp 7) = 0xC1C0 := by decide
theorem test_asm : (decode 0x147D).toAsm = some "ADD R2, R1, #-3" := by decide

/-! ### One step of each instruction -/

/-- The state after reset with a program at 0x3000, registers and COND given. -/
def start (ws : List Word) (regs : Vector Word 8) (c : Cond) : State :=
  State.loadImage 0x3000 ws { State.reset with regs := regs, cond := c }

/-- The next state of an outcome that has one. -/
def after : Host.Outcome State Fault Refusal → State
  | .next s => s
  | .fault _ => State.reset
  | .refused _ => State.reset

/-- The state after one step. -/
def stepped (s : State) : State := after (step s)

/-- A1 -/
theorem test_add_reg : (stepped (start [0x1642] #v[0, 5, 7, 0, 0, 0, 0, 0] .n)).reg 3 = 0x000C := by decide
/-- A3: signed overflow wraps to a negative result. -/
theorem test_add_reg_wraps : (stepped (start [0x1642] #v[0, 0x7FFF, 1, 0, 0, 0, 0, 0] .p)).cond = .n := by decide
/-- S2, A2 -/
theorem test_add_imm : (stepped (start [0x147D] #v[0, 5, 0, 0, 0, 0, 0, 0] .n)).reg 2 = 0x0002 := by decide
/-- A6: the unsigned carry out is dropped. -/
theorem test_add_imm_zero : (stepped (start [0x126F] #v[0, 0xFFF1, 0, 0, 0, 0, 0, 0] .n)).cond = .z := by decide
/-- A10 -/
theorem test_and_reg : (stepped (start [0x5946] #v[0, 0, 0, 0, 0, 0xF0F0, 0x0FF0, 0] .n)).reg 4 = 0x00F0 := by decide
/-- A13: a negative immediate keeps bits 15–5. -/
theorem test_and_imm : (stepped (start [0x5A70] #v[0, 0x8FFF, 0, 0, 0, 0, 0, 0] .p)).reg 5 = 0x8FF0 := by decide
/-- A14 -/
theorem test_not : (stepped (start [0x92BF] #v[0, 0, 0x00FF, 0, 0, 0, 0, 0] .p)).reg 1 = 0xFF00 := by decide
/-- A16: NOT with bits 5–0 = 0 under strict mode. -/
theorem test_not_strict :
    (stepped { start [0x9000] State.reset.regs .p with params := { Params.default with strictFixedBits := true } }).run =
      .faulted (.illegalEncoding 0x9000) := by decide
/-- S5: taken. -/
theorem test_br_taken : (stepped (start [0x0403] State.reset.regs .z)).pc = 0x3004 := by decide
/-- S5: not taken. -/
theorem test_br_not_taken : (stepped (start [0x0403] State.reset.regs .p)).pc = 0x3001 := by decide
/-- J1 -/
theorem test_jmp : (stepped (start [0xC080] #v[0, 0, 0x4000, 0, 0, 0, 0, 0] .z)).pc = 0x4000 := by decide
/-- J5 -/
theorem test_jsr : (stepped (start [0x4C00] State.reset.regs .z)).pc = 0x2C01 := by decide
/-- J3: the link. -/
theorem test_jsr_link : (stepped (start [0x4810] State.reset.regs .z)).reg 7 = 0x3001 := by decide
/-- J8: JSRR R7 under link_first. -/
theorem test_jsrr_link_first : (stepped (start [0x41C0] #v[0, 0, 0, 0, 0, 0, 0, 0x6000] .z)).pc = 0x3001 := by decide
/-- J9: JSRR R7 under base_first. -/
theorem test_jsrr_base_first :
    (stepped { start [0x41C0] #v[0, 0, 0, 0, 0, 0, 0, 0x6000] .z with
      params := { Params.default with jsrrOrder := .baseFirst } }).pc = 0x6000 := by decide
/-- L1 -/
theorem test_ld : (stepped (start [0x2205, 0, 0, 0, 0, 0, 0x8001] State.reset.regs .p)).reg 1 = 0x8001 := by decide
/-- L2: LD of its own word. -/
theorem test_ld_self : (stepped (start [0x2FFF] State.reset.regs .z)).reg 7 = 0x2FFF := by decide
/-- S6 with the value at 0x3004 in place of 0x3000. -/
theorem test_ldi : (stepped (start [0xA602, 0, 0, 0x3004, 0x00FF] State.reset.regs .n)).reg 3 = 0x00FF := by decide
/-- L6: the address wraps, and the base is read before DR is written. -/
theorem test_ldr_wraps :
    (stepped (State.loadImage 0 [0x1234] (start [0x6481] #v[0, 0, 0xFFFF, 0, 0, 0, 0, 0] .z))).reg 2 = 0x1234 := by decide
/-- L15: a device-region read is the environment's answer. -/
theorem test_ldr_device :
    (stepped { start [0x6040] #v[0, 0xFE00, 0, 0, 0, 0, 0, 0] .z with deviceIn := [0x8000] }).reg 0 = 0x8000 := by decide
/-- L7 -/
theorem test_lea : (stepped (start [0xE1FF] State.reset.regs .n)).reg 0 = 0x3000 := by decide
/-- L7: LEA sets COND. -/
theorem test_lea_cond : (stepped (start [0xE1FF] State.reset.regs .n)).cond = .p := by decide
/-- L10 -/
theorem test_st : (stepped (start [0x3203] #v[0, 0x1234, 0, 0, 0, 0, 0, 0] .z)).mem.read 0x3004 = 0x1234 := by decide
/-- L11 -/
theorem test_sti :
    (stepped (start [0xB404, 0, 0, 0, 0, 0x4000] #v[0, 0, 0xBEEF, 0, 0, 0, 0, 0] .z)).mem.read 0x4000 = 0xBEEF := by decide
/-- L14 -/
theorem test_str : (stepped (start [0x7D80] #v[0, 0, 0, 0, 0, 0, 0x5000, 0] .z)).mem.read 0x5000 = 0x5000 := by decide
/-- R45: a store into the device region goes to the environment. -/
theorem test_str_device :
    (stepped (start [0x7D80] #v[0, 0, 0, 0, 0, 0, 0xFE02, 0] .z)).output = [.device 0xFE02 0xFE02] := by decide
/-- T1: GETC; T12: held with no outcome, the link written (R181); T6: IN echoes. -/
theorem test_trap_input :
    (stepped { start [0xF020] #v[0xFFFF, 0, 0, 0, 0, 0, 0, 0] .n with consoleIn := [0x61] }).reg 0 = 0x0061 ∧
    (stepped (start [0xF020] State.reset.regs .n)).run = .held .getc ∧
    (stepped (start [0xF020] State.reset.regs .n)).reg 7 = 0x3001 ∧
    (stepped { start [0xF023] State.reset.regs .n with consoleIn := [0x61] }).consoleOutput = [0x61] := by decide
/-- T2: OUT; T4: PUTS wraps from 0xFFFF to 0x0000; T7: PUTSP of "Hi!"; T8: HALT; T9: vector 0xFF. -/
theorem test_trap_output :
    (stepped (start [0xF021] #v[0x0041, 0, 0, 0, 0, 0, 0, 0] .z)).consoleOutput = [0x41] ∧
    (stepped (State.loadImage 0xFFFF [0x0041, 0x0042, 0]
      { start [0xF022] #v[0xFFFF, 0, 0, 0, 0, 0, 0, 0] .z with
        params := { Params.default with deviceRegion := [⟨0xFE00, 0xFFFE⟩] } })).consoleOutput = [0x41, 0x42] ∧
    (stepped (State.loadImage 0x4000 [0x6948, 0x0021] (start [0xF024] #v[0x4000, 0, 0, 0, 0, 0, 0, 0] .z))).consoleOutput =
      [0x48, 0x69, 0x21] ∧
    (stepped (start [0xF025] State.reset.regs .z)).run = .halted ∧
    (stepped (start [0xF0FF] State.reset.regs .z)).run = .faulted (.unknownTrap 0xFF) := by decide
/-- X1 -/
theorem test_rti : (stepped (start [0x8000] State.reset.regs .z)).outcome = some (.reserved .rti) := by decide
/-- X2: RES under the default policy goes on. -/
theorem test_res : (stepped (start [0xD123] State.reset.regs .z)).run = .running := by decide
/-- X3 -/
theorem test_rti_fault_policy :
    (stepped { start [0x8000] State.reset.regs .z with
      params := { Params.default with reservedPolicy := .fault } }).run = .faulted (.reservedOpcode .rti) := by decide
/-- The host's placement of a word: it runs as the first instruction after reset. -/
theorem test_withFetchWord : (stepped (State.reset.withFetchWord 16 0x1265)).reg 1 = 5 := by decide
theorem test_reset_memory_canonical : State.reset.mem.wf = true := by decide
theorem test_params_wf : Params.default.wf = true := by decide

/-! ### Witnesses for the hypotheses of the statements -/

theorem witness_SignExtensionByRule : (5 = 5 ∨ 5 = 6 ∨ 5 = 9 ∨ 5 = 11) := by decide
theorem witness_DecodeEncodeRoundTrip : (Instr.jsr 0xFC00).wf = true ∧ (Instr.res 0xD123).wf = true := by decide
theorem witness_EncodeDecodeRestoresWord : fixedBitsDiffer 0x903F = false := by decide
theorem witness_FixedBitsPolicy_reserved :
    (0x8000#16).extractLsb' 12 4 = (0x8FFF#16).extractLsb' 12 4 ∧ (0x8000#16).extractLsb' 12 4 = 0x8 := by decide
theorem witness_FixedBitsPolicy_mismatch : StrictMismatch 0x1249 ∧ ¬ StrictMismatch 0x1241 := by
  unfold StrictMismatch; decide
theorem witness_FixedBitsPolicy_lenient : State.reset.params.strictFixedBits = false := rfl
theorem witness_JsrModeBitToggle : (0x4040#16) &&& 0xF800 = 0x4000 ∧ regField 0x4040 6 ≠ 7 := by decide
theorem witness_AddRegister : (0x1249#16) &&& 0xF020 = 0x1000 ∧ (0x1249#16).extractLsb' 3 2 ≠ 0 := by decide
theorem witness_AddImmediate : (0x147D#16) &&& 0xF020 = 0x1020 := by decide
theorem witness_AndRegister : (0x595E#16) &&& 0xF020 = 0x5000 ∧ (0x595E#16).extractLsb' 3 2 ≠ 0 := by decide
theorem witness_AndImmediate : (0x5020#16) &&& 0xF020 = 0x5020 := by decide
theorem witness_NotComplements : (0x9000#16) &&& 0xF000 = 0x9000 ∧ (0x9000#16).extractLsb' 0 6 ≠ 0x3F := by decide
theorem witness_BranchOnCondition : (0x0FFF#16) &&& 0xF000 = 0x0000 := by decide
theorem witness_JumpToRegister : (0xC200#16) &&& 0xF000 = 0xC000 ∧ (0xC200#16).extractLsb' 9 3 ≠ 0 := by decide
theorem witness_JsrSavesLinkAndJumps : (0x4BFF#16) &&& 0xF800 = 0x4800 := by decide
theorem witness_JsrrSavesLinkAndJumps : (0x4200#16) &&& 0xF800 = 0x4000 ∧ (0x4200#16).extractLsb' 9 2 ≠ 0 := by decide
theorem witness_JsrrSavesLinkAndJumps_orders :
    Params.default.jsrrOrder = .linkFirst ∧ { Params.default with jsrrOrder := .baseFirst }.jsrrOrder = .baseFirst := by decide
theorem witness_LoadPcRelative : (0x2FFF#16) &&& 0xF000 = 0x2000 := by decide
theorem witness_LoadIndirect : (0xA5FF#16) &&& 0xF000 = 0xA000 := by decide
theorem witness_LoadBaseOffset : (0x697F#16) &&& 0xF000 = 0x6000 := by decide
theorem witness_LoadEffectiveAddress : (0xE1FF#16) &&& 0xF000 = 0xE000 := by decide
theorem witness_StorePcRelative : (0x3203#16) &&& 0xF000 = 0x3000 ∧ (start [0x3203] State.reset.regs .z).mem.wf = true := by decide
theorem witness_StoreIndirect : (0xB5FF#16) &&& 0xF000 = 0xB000 ∧ (start [0xB5FF] State.reset.regs .z).mem.wf = true := by decide
theorem witness_StoreBaseOffset : (0x7D80#16) &&& 0xF000 = 0x7000 ∧ (start [0x7D80] State.reset.regs .z).mem.wf = true := by decide
/-- A store inside the device region, and one outside it at its lower edge. -/
theorem witness_StoredAt_region :
    State.reset.params.inDevice 0xFE00 = true ∧ State.reset.params.inDevice 0xFDFF = false := by decide
theorem witness_ReservedOpcodes :
    (0x8FFF#16) &&& 0xF000 = 0x8000 ∧ (0xD000#16) &&& 0xF000 = 0xD000 ∧ Params.default.reservedPolicy = .ignore ∧
      { Params.default with reservedPolicy := .fault }.reservedPolicy = .fault := by decide
theorem witness_TrapEntry : (0xF125#16) &&& 0xF000 = 0xF000 ∧ (0xF125#16).extractLsb' 8 4 ≠ 0 := by decide
theorem witness_GetcReadsCharacter :
    State.reset.consoleIn = [] ∧ (State.reset.supplyChar 0x61).consoleIn = [0x61] := by decide
theorem witness_InPromptsAndReads :
    State.reset.consoleIn = [] ∧ (State.reset.supplyChar 0xFF).consoleIn = [0xFF] ∧ Params.default.inEcho = [] := by decide

/-- A state in which R0 points at the string "A" in memory. -/
def stringState : State := State.loadImage 0x4000 [0x0041] (start [] #v[0x4000, 0, 0, 0, 0, 0, 0, 0] .z)

theorem witness_PutsWritesString :
    WordsRead stringState (stringState.reg 0) [0x0041] stringState ∧
    ReadGives stringState (stringState.reg 0 + BitVec.ofNat 16 1) 0 stringState ∧ [(0x0041 : Word)].length < 65536 :=
  ⟨.cons (.inl ⟨by decide, by decide, rfl⟩) (by decide) (.nil _ _), .inl ⟨by decide, by decide, rfl⟩, by decide⟩

theorem witness_PutspWritesPackedString :
    WordsRead stringState (stringState.reg 0) [0x0041] stringState ∧
    ReadGives stringState (stringState.reg 0 + BitVec.ofNat 16 1) 0 stringState :=
  ⟨witness_PutsWritesString.1, witness_PutsWritesString.2.1⟩

/-- A state whose every address is in the device region, with `n` answers 0x0041 set out. -/
def drawState (n : Nat) : State :=
  { State.reset with
    params := { Params.default with deviceRegion := [⟨0, 0xFFFF⟩] }
    deviceIn := List.replicate n 0x0041 }

theorem drawState_inDevice (n : Nat) (a : Word) : (drawState n).params.inDevice a = true := by
  have h : a ≤ 0xFFFF#16 := by
    rw [BitVec.le_def]
    have := a.isLt
    simp
    omega
  have h0 : 0#16 ≤ a := by simp [BitVec.le_def]
  simp [drawState, Params.inDevice, h, h0]

theorem drawState_reads : ∀ (n : Nat) (a : Word),
    WordsRead (drawState n) a (List.replicate n 0x0041) (drawState 0)
  | 0, a => .nil _ a
  | n + 1, a => by
    refine .cons (s1 := drawState n) (.inr (.inl ⟨drawState_inDevice _ a, List.replicate n 0x0041, ?_, rfl⟩)) (by decide)
      (drawState_reads n (a + 1))
    rfl

/-- The unterminated case: 65536 words, none of them 0x0000. -/
theorem witness_PutsWritesString_unterminated :
    ∃ (s s1 : State) (ws : List Word), WordsRead s (s.reg 0) ws s1 ∧ ws.length = 65536 :=
  ⟨drawState 65536, drawState 0, List.replicate 65536 0x0041, drawState_reads 65536 _, List.length_replicate⟩

theorem witness_StringTrapsEndOrFault : ((0x22#8) = 0x22 ∨ (0x22#8) = 0x24) := by decide
theorem witness_UnknownVector : ((0x1F#8).toNat < 0x20 ∨ 0x25 < (0x1F#8).toNat) ∧ (0x25 < (0x26#8).toNat) := by decide
theorem witness_UnknownVector_policies :
    Params.default.unknownTrapPolicy = .fault ∧
      { Params.default with unknownTrapPolicy := .ignore }.unknownTrapPolicy = .ignore := by decide
theorem witness_InputHoldsUntilCharacter :
    (State.reset.hold .getc).run = .held .getc ∧ (State.reset.hold .getc).consoleIn = [] ∧
      ((State.reset.hold .input).supplyChar 0x61).run = .held .input ∧
      ((State.reset.hold .input).supplyChar 0x61).consoleIn = [0x61] := by decide
theorem witness_StepRunsDecodedInstruction :
    State.reset.run = .running ∧ ReadGives State.reset State.reset.pc 0x0000 State.reset ∧
      decodeChecked State.reset.params.strictFixedBits 0x0000 = .ok (.br false false false 0) :=
  ⟨rfl, .inl ⟨by decide, by decide, rfl⟩, by decide⟩
theorem witness_ReactionToOutcomes :
    (State.reset.finish .completed).outcome = some .completed ∧ (State.reset.finish .halt).outcome = some .halt ∧
      (State.reset.finish (.reserved .res)).outcome = some (.reserved .res) ∧
      (State.reset.finish (.unknownTrap 0x26)).outcome = some (.unknownTrap 0x26) ∧
      (State.reset.raise .unterminatedString).outcome = some (.fault .unterminatedString) ∧
      (State.reset.setRun .halted).run = .halted ∧
      (State.reset.setRun (.faulted .unterminatedString)).run = .faulted .unterminatedString := by decide
theorem witness_MemoryPort :
    State.reset.mem.wf = true ∧ State.reset.params.inDevice 0xFDFF = false ∧
      State.reset.params.inDevice 0xFE00 = true ∧ ({ State.reset with deviceIn := [7] }).deviceIn = 7 :: [] ∧
      State.reset.deviceIn = [] := by decide

/-- A program whose first word, `ST R1, #0`, overwrites the second. -/
def selfModifying : State := start [0x3200, 0x14A1] #v[0, 0xF025, 0, 0, 0, 0, 0, 0] .z

theorem selfModifying_mem : selfModifying.mem = [(0x3000, 0x3200), (0x3001, 0x14A1)] := by decide

theorem selfModifying_inv : selfModifying.Inv where
  memCanonical := by decide
  memOutsideDevice := by
    intro k v h
    rw [selfModifying_mem] at h
    simp at h
    obtain ⟨rfl, -⟩ | ⟨rfl, -⟩ := h <;> decide
  outcomeAgrees := by
    intro o h
    have hn : selfModifying.outcome = none := by decide
    rw [hn] at h
    cases h
  heldTrapSavedLink := by
    intro svc h
    have hr : selfModifying.run = .running := by decide
    rw [hr] at h
    cases h

theorem witness_StoredWordRunsNext :
    selfModifying.Inv ∧ selfModifying.run = .running ∧ selfModifying.params.inDevice selfModifying.pc = false ∧
      selfModifying.params.inDevice (selfModifying.pc + 1) = false ∧
      selfModifying.mem.read selfModifying.pc = encode (.st 1 0) :=
  ⟨selfModifying_inv, by decide, by decide, by decide, by decide⟩

theorem witness_LaunchState : Params.default.inDevice 0x3000 = false := by decide
theorem witness_StepKeepsInvariant : selfModifying.Inv ∧ step selfModifying = .next (stepped selfModifying) :=
  ⟨selfModifying_inv, rfl⟩
theorem witness_CanonicalMemoriesEqual : Mem.wf [(0, 1), (65535, 2)] = true ∧ ∀ a, Mem.read [(0, 1), (65535, 2)] a = Mem.read [(0, 1), (65535, 2)] a :=
  ⟨by decide, fun _ => rfl⟩
theorem witness_OnlyFlagSettersWriteCond :
    flagDest (.lea 3 0) = some 3 ∧ flagDest (.trap 0x20) = none ∧ (State.reset.hold .getc).run = .held .getc ∧
      ∃ t, step (State.reset.hold .getc) = .next t := ⟨rfl, rfl, rfl, _, rfl⟩
theorem witness_OnlyBrReadsCond :
    (Instr.trap 0x22).opcode ≠ .br ∧ AgreeButCond State.reset { State.reset with cond := .n } :=
  ⟨by decide, ⟨rfl, rfl, rfl, rfl, rfl, rfl, rfl, rfl, rfl, rfl⟩⟩
theorem witness_OnlyListedRegistersChange : (Instr.trap 0x20).opcode ∉ [OpCode.br, .jmp, .jsr] := by decide
theorem witness_OnlyStoresWriteMemory : (Instr.trap 0x22).opcode ∉ [OpCode.st, .sti, .str] := by decide
theorem witness_OthersDoNotAccessMemory :
    accessesMemory (.trap 0x23) = false ∧
      AgreeButMemory State.reset { State.reset with mem := [(0, 1)], deviceIn := [7] } :=
  ⟨by decide, ⟨rfl, rfl, rfl, rfl, rfl, rfl, rfl, rfl⟩⟩

/-- A state that runs TRAP 0x25 next. -/
def haltState : State := start [0xF025] State.reset.regs .z

theorem witness_OnlyHaltTrapHalts :
    haltState.run = .running ∧ ReadGives haltState haltState.pc 0xF025 haltState ∧
      step haltState = .next (stepped haltState) ∧ (stepped haltState).run = .halted :=
  ⟨by decide, .inl ⟨by decide, by decide, rfl⟩, rfl, by decide⟩
theorem witness_OnlyHaltTrapHalts_held :
    (State.reset.hold .input).run = .held .input ∧ step (State.reset.hold .input) = .next (State.reset.hold .input) :=
  ⟨rfl, rfl⟩

/-- A state that runs TRAP 0x26, which names no service, next. -/
def unknownState : State := start [0xF026] State.reset.regs .z

theorem witness_FaultCauses :
    unknownState.run = .running ∧ ReadGives unknownState unknownState.pc 0xF026 unknownState ∧
      step unknownState = .next (stepped unknownState) ∧ (stepped unknownState).run = .faulted (.unknownTrap 0x26) :=
  ⟨by decide, .inl ⟨by decide, by decide, rfl⟩, rfl, by decide⟩
/-- The same for the remaining faults: strict mode, the policy `fault`, and a string without a terminator. -/
theorem witness_FaultCauses_strict :
    (stepped { start [0xF125] State.reset.regs .z with params := { Params.default with strictFixedBits := true } }).run =
      .faulted (.illegalEncoding 0xF125) := by decide
theorem witness_FaultCauses_reserved :
    (stepped { start [0xD000] State.reset.regs .z with params := { Params.default with reservedPolicy := .fault } }).run =
      .faulted (.reservedOpcode .res) := by decide

/-- A step that fetches TRAP 0x22 by default runs PUTS. -/
theorem step_puts {s s1 : State} (hr : s.run = .running) (hs : s.params.strictFixedBits = false)
    (hg : ReadGives s s.pc 0xF022 s1) : step s = .next (s1.setPc (s.pc + 1)).saveLink.trapPuts.react := by
  have hd : decodeChecked s1.params.strictFixedBits 0xF022 = .ok (.trap 0x22) := by
    rw [hg.same.1, hs]
    rfl
  rw [step_running hr, State.fetch_of_gives hg]
  unfold execute
  rw [State.setPc_params, hd]
  rfl

/-- A state that runs TRAP 0x22, drawn from the environment, over `n` answers 0x0041. -/
def putsState (n : Nat) : State := { drawState n with deviceIn := 0xF022 :: List.replicate n 0x0041 }

theorem putsState_reads (n : Nat) : ReadGives (putsState n) 0x3000 0xF022 (drawState n) :=
  .inr (.inl ⟨drawState_inDevice n _, List.replicate n 0x0041, rfl, rfl⟩)

theorem drawState_reads_saved (n : Nat) (t a : Word) :
    ∃ s, WordsRead ((drawState n).setPc t).saveLink a (List.replicate n 0x0041) s := by
  induction n generalizing a with
  | zero => exact ⟨_, .nil _ a⟩
  | succ n ih =>
    obtain ⟨s, h⟩ := ih (a + 1)
    exact ⟨s, .cons (.inr (.inl ⟨drawState_inDevice (n + 1) a, List.replicate n 0x0041, rfl, rfl⟩)) (by decide) h⟩

theorem witness_FaultCauses_unterminated :
    (putsState 65536).run = .running ∧ ReadGives (putsState 65536) 0x3000 0xF022 (drawState 65536) ∧
      ∃ t, step (putsState 65536) = .next t ∧ t.run = .faulted .unterminatedString := by
  obtain ⟨s, h⟩ := drawState_reads_saved 65536 0x3001 _
  exact ⟨rfl, putsState_reads _, _, step_puts rfl rfl (putsState_reads _),
    State.trapPuts_unterminated h List.length_replicate⟩

theorem witness_RunsExtendOutput : Reaches haltState (stepped haltState) := .tail (.refl _) rfl

end Sys2Proof.Tests
end

section
/-! Sign extension by the rule of R11, by the field's top bit. -/

namespace Sys2Proof

/-- Below bit n both sides are the field's bits; from bit n on the left is the sign and the right is the mask. -/
theorem sext_of_msb_true {n : Nat} {f : BitVec n} (h : f.msb = true) :
    sext n f = f.setWidth 16 ||| (0xFFFF#16 <<< n) := by
  have hones : ∀ j (hj : j < 16), (0xFFFF#16)[j] = true := fun _ hj => BitVec.getElem_allOnes _ hj
  ext i hi
  by_cases hin : i < n
  · simp [sext, BitVec.getElem_signExtend, hin]
  · simp [sext, BitVec.getElem_signExtend, hin, h, hones]

theorem sext_of_msb_false {n : Nat} {f : BitVec n} (h : f.msb = false) : sext n f = f.setWidth 16 :=
  BitVec.signExtend_eq_setWidth_of_msb_false h

/-- Settles O2, by the field's top bit; the rule holds at every width. -/
theorem signExtensionByRule : Obligations.SignExtensionByRule := by
  intro n _ f
  rw [← BitVec.msb_eq_getLsbD_last]
  split
  case isTrue hmsb => exact sext_of_msb_true hmsb
  case isFalse hmsb => exact sext_of_msb_false (Bool.eq_false_of_not_eq_true hmsb)

end Sys2Proof
end

section
/-! The state (spec/10_state.md): the launch, the flag and its storage, and which instructions write COND. -/

namespace Sys2Proof.Machine

/-! ### The flag of a written value -/

theorem condReflects_condOf (v : Word) : CondReflects v (condOf v) where
  negative hsign := by rw [condOf, bitAt, hsign, if_pos rfl]
  zero hsign hzero := by rw [condOf, bitAt, hsign, if_neg Bool.false_ne_true, if_pos hzero]
  positive hsign hzero := by rw [condOf, bitAt, hsign, if_neg Bool.false_ne_true, if_neg hzero]

/-- Settles O11: the flag is the value's, and COND is the only field of the update. -/
theorem flagUpdate : Obligations.FlagUpdate :=
  fun _ v => ⟨condReflects_condOf v, rfl⟩

/-- Settles O12, flag by flag. -/
theorem condStoredOneHot : Obligations.CondStoredOneHot :=
  ⟨rfl, rfl, rfl, fun c => by cases c <;> decide⟩

/-! ### The launch state -/

/-- Rewriting, where `rfl` would evaluate the list of all 65536 cells. -/
theorem State.launch_mem (p : Params) (l : LaunchInput) (chars : List Byte) (answers : List Word) :
    (State.launch p l chars answers).mem = Mem.ofFunction (fun a => !p.inDevice a) l.initMem := by
  rw [State.launch]

theorem State.launch_memOutsideDevice (p : Params) (l : LaunchInput) (chars : List Byte) (answers : List Word) :
    (State.launch p l chars answers).MemOutsideDevice := by
  intro k v hlisted
  rw [State.launch_mem] at hlisted
  simpa [State.launch] using Mem.mem_ofFunction hlisted

theorem State.launch_inv (p : Params) (l : LaunchInput) (chars : List Byte) (answers : List Word) :
    (State.launch p l chars answers).Inv where
  memCanonical := by
    rw [State.launch_mem]
    exact Mem.wf_ofFunction _ _
  memOutsideDevice := State.launch_memOutsideDevice p l chars answers
  outcomeAgrees := nofun
  heldTrapSavedLink := nofun

theorem State.launch_read (p : Params) (l : LaunchInput) (chars : List Byte) (answers : List Word) {a : Word}
    (ha : p.inDevice a = false) : (State.launch p l chars answers).mem.read a = l.initMem a := by
  rw [State.launch_mem]
  exact Mem.read_ofFunction _ _ a (by simp [ha])

/-- Settles O45: the invariant and the cells by the laws of a memory given as a function; the rest is what the
launch state is defined to hold. -/
theorem launchState : Obligations.LaunchState :=
  fun p l chars answers => ⟨State.launch_inv p l chars answers, rfl, fun _ => rfl, rfl,
    fun _ ha => State.launch_read p l chars answers ha, rfl, rfl, rfl, rfl, rfl⟩

/-! ### COND through the traps -/

@[simp] theorem State.awaitInput_cond (s : State) (svc : InputService) : (s.awaitInput svc).cond = s.cond := by
  cases h : s.consoleIn with
  | nil => simp [State.awaitInput_nil h]
  | cons c rest => simp [State.awaitInput_cons h]

@[simp] theorem State.resume_cond (s : State) (svc : InputService) : (s.resume svc).cond = s.cond := by
  cases h : s.consoleIn with
  | nil => rw [State.resume_nil h]
  | cons c rest => simp [State.resume_cons h]

@[simp] theorem State.trapService_cond (s : State) (v : Byte) : (s.trapService v).cond = s.cond := by
  unfold State.trapService
  split_ifs
  · exact s.awaitInput_cond .getc
  · rfl
  · exact State.stringLoop_cond putsBytes 65536 (s.reg 0) s
  · exact (s.emit s.params.inPrompt).awaitInput_cond .input
  · exact State.stringLoop_cond putspBytes 65536 (s.reg 0) s
  · rfl
  · rfl

/-! ### COND through an instruction -/

/-- With a destination, COND reflects the value left in it; without one, COND is unchanged (R24). -/
structure CondFollows (dest : Option Reg) (s t : State) : Prop where
  reflects : ∀ dr, dest = some dr → CondReflects (t.reg dr) t.cond
  unchanged : dest = none → t.cond = s.cond

theorem CondFollows.of_cond_eq {s t : State} (h : t.cond = s.cond) : CondFollows none s t :=
  ⟨nofun, fun _ => h⟩

/-- The shared end of the flag-setting handlers (R95), from whatever state `u` their reads left. -/
theorem CondFollows.writeResult (s u : State) (dr : Reg) (v : Word) (o : CoreOutcome) :
    CondFollows (some dr) s ((u.writeResult dr v).finish o) where
  reflects := by
    rintro _ ⟨⟩
    simpa [State.writeResult] using condReflects_condOf v
  unchanged := nofun

/-- The flag-setting handlers end in `writeResult`; the others change COND by none of their operations. -/
theorem exec_condFollows (i : Instr) (s : State) : ∃ t, exec i s = .next t ∧ CondFollows (flagDest i) s t := by
  cases i with
  | addR | addI | andR | andI | notR | ld | ldi | ldr | lea => exact ⟨_, rfl, .writeResult ..⟩
  | br n z p off =>
    refine ⟨_, rfl, .of_cond_eq ?_⟩
    split <;> rfl
  | jsrr base =>
    refine ⟨_, rfl, .of_cond_eq ?_⟩
    split <;> rfl
  | jmp | jsr | rti | res => exact ⟨_, rfl, .of_cond_eq rfl⟩
  | st | str => exact ⟨_, rfl, .of_cond_eq (State.memWrite_cond ..)⟩
  | sti sr off =>
    exact ⟨_, rfl, .of_cond_eq ((State.memWrite_cond ..).trans (State.memRead_cond ..))⟩
  | trap v =>
    exact ⟨_, rfl, .of_cond_eq ((State.trapService_cond ..).trans (State.saveLink_cond s))⟩

/-- The instructions with a destination are those of the seven opcodes R24 lists. -/
theorem flagDest_isSome_iff (i : Instr) :
    (flagDest i).isSome = true ↔ i.opcode ∈ [.add, .and, .not, .ld, .ldi, .ldr, .lea] := by
  cases i <;> simp [flagDest, Instr.opcode]

/-- Settles O49: each instruction by its handler, the list by the instructions' tags, and the held trap by what a
resumed service leaves. -/
theorem onlyFlagSettersWriteCond : Obligations.OnlyFlagSettersWriteCond := by
  refine ⟨fun i s => ?_, flagDest_isSome_iff, fun s t svc hheld hstep => ?_⟩
  · obtain ⟨t, hexec, hfollows⟩ := exec_condFollows i s
    exact ⟨t, hexec, hfollows.reflects, hfollows.unchanged⟩
  · rw [step_held hheld] at hstep
    cases hstep
    exact s.resume_cond svc

end Sys2Proof.Machine
end

section
/-! The encoding (spec/30_encoding.md): the opcode tag of every word (R62), the bits no field names (R77), and the
pseudo-instructions (R81). -/

namespace Sys2Proof

/-! ### The opcode tag -/

/-- Each arm of the decoder answers an instruction of its own tag (R76), in either mode. -/
theorem decode_opcode (w : Word) : (decode w).opcode = decodeOpcode w := by
  unfold decode
  cases decodeOpcode w with
  | add | and | jsr => dsimp only; split <;> rfl
  | br | ld | st | ldr | str | rti | not | ldi | sti | jmp | res | lea | trap => rfl

/-- Settles O3: the tag by the law of the opcode vector, its values by their definition, and the decoded
instruction's tag arm by arm. -/
theorem opcodeValues : Obligations.OpcodeValues :=
  ⟨decodeOpcode_eq_iff, ⟨rfl, rfl, rfl, rfl⟩, ⟨rfl, rfl, rfl, rfl⟩, ⟨rfl, rfl, rfl, rfl⟩, ⟨rfl, rfl, rfl, rfl⟩,
    decode_opcode⟩

/-! ### Flipping bits under a mask: the fields the mask misses stay -/

theorem field_flip {m : Word} {lo n : Nat} (h : field m lo n = 0) (w j : Word) :
    field (w ^^^ (j &&& m)) lo n = field w lo n := by
  simp only [field] at h ⊢
  rw [BitVec.extractLsb'_xor, BitVec.extractLsb'_and, h, BitVec.ofNat_eq_ofNat, BitVec.and_zero, BitVec.xor_zero]

theorem bitAt_flip {m : Word} {i : Nat} (h : bitAt m i = false) (w j : Word) :
    bitAt (w ^^^ (j &&& m)) i = bitAt w i := by
  simp only [bitAt] at h ⊢
  rw [BitVec.getLsbD_xor, BitVec.getLsbD_and, h, Bool.and_false, Bool.xor_false]

theorem regField_flip {m : Word} {lo : Nat} (h : field m lo 3 = 0) (w j : Word) :
    regField (w ^^^ (j &&& m)) lo = regField w lo :=
  congrArg BitVec.toFin (field_flip h w j)

theorem decodeOpcode_flip {m : Word} (h : field m 12 4 = 0) (w j : Word) :
    decodeOpcode (w ^^^ (j &&& m)) = decodeOpcode w := by
  rw [decodeOpcode_eq_iff, field_flip h, ← decodeOpcode_eq_iff]

end Sys2Proof

namespace Sys2Proof.Machine

/-! ### The bits no field names -/

/-- In the six forms with unnamed bits every field the decoder reads lies outside the mask; in the others the mask
is 0 and the word itself is unchanged. -/
theorem decode_flip_unnamedBits (w j : Word) : decode (w ^^^ (j &&& unnamedBits (decode w))) = decode w := by
  cases hop : decodeOpcode w with
  | add | and =>
    cases hmode : bitAt w 5 <;>
      simp (disch := decide) [decode, unnamedBits, hop, hmode, decodeOpcode_flip, bitAt_flip, regField_flip]
  | jsr =>
    cases hmode : bitAt w 11 <;>
      simp (disch := decide) [decode, unnamedBits, hop, hmode, decodeOpcode_flip, bitAt_flip, regField_flip]
  | not | jmp | trap =>
    simp (disch := decide) [decode, unnamedBits, hop, decodeOpcode_flip, field_flip, regField_flip]
  | br | ld | st | ldr | str | rti | ldi | sti | res | lea => simp [decode, unnamedBits, hop]

/-! ### The reserved opcodes -/

/-- The reserved opcodes have no fixed bits, so strict mode does not reach them (R77). -/
theorem execute_of_reserved {w : Word} {op : ReservedOp} (h : decodeOpcode w = reservedTag op) (s : State) :
    execute w s = .next (s.finish (.reserved op)) := by
  have hmatch : ¬ StrictMismatch w := by
    rw [← fixedBitsDiffer_iff, fixedBitsDiffer, decode, h]
    cases op <;> exact Bool.false_ne_true
  rw [execute_of_no_mismatch hmatch, decode, h]
  cases op <;> rfl

theorem execute_congr_of_reserved {w w' : Word} (htag : field w 12 4 = field w' 12 4)
    (hres : field w 12 4 = OpCode.rti.bits ∨ field w 12 4 = OpCode.res.bits) (s : State) :
    execute w s = execute w' s := by
  obtain ⟨op, hop⟩ : ∃ op, field w 12 4 = (reservedTag op).bits :=
    hres.elim (fun hrtiTag => ⟨.rti, hrtiTag⟩) (fun hresTag => ⟨.res, hresTag⟩)
  rw [execute_of_reserved (decodeOpcode_of_field hop), execute_of_reserved (decodeOpcode_of_field (htag ▸ hop))]

/-- Settles O8: the unnamed bits by the decoder's fields, the reserved words by what they execute as, and strict
mode by the laws of `execute`. -/
theorem fixedBitsPolicy : Obligations.FixedBitsPolicy :=
  ⟨decode_flip_unnamedBits, fun _ _ s htag hres => execute_congr_of_reserved htag hres s,
    fun w _ hlenient => execute_of_lenient w hlenient, fun _ => rejectedStrictly_of_mismatch,
    fun _ s hmatch => execute_of_no_mismatch hmatch s⟩

/-! ### The pseudo-instructions -/

/-- Settles O9: the encoder evaluated on the eight expansions. -/
theorem pseudoInstructionWords : Obligations.PseudoInstructionWords := by
  unfold Obligations.PseudoInstructionWords
  decide

end Sys2Proof.Machine
end

section
/-! Dispatch (spec/40_dispatch.md): the reserved opcodes (R97, R98), and the fetch loop's reaction to an outcome and
its two stopped states (R93). -/

namespace Sys2Proof

/-! ### The opcode under its mask -/

theorem decodeOpcode_of_masked {w p : Word} {op : OpCode} (h : w &&& 0xF000 = p) (hp : field p 12 4 = op.bits) :
    decodeOpcode w = op :=
  decodeOpcode_of_field ((field_of_masked h 12 4 (by decide)).trans hp)

theorem decode_of_rti {w : Word} (h : decodeOpcode w = .rti) : decode w = .rti w := by
  rw [decode, h]

theorem decode_of_res {w : Word} (h : decodeOpcode w = .res) : decode w = .res w := by
  rw [decode, h]

end Sys2Proof

namespace Sys2Proof.Machine

/-! ### The reaction to an outcome -/

theorem State.react_of_stopStatus_none {s : State} {o : CoreOutcome} (h : s.outcome = some o)
    (hgo : stopStatus s.params o = none) : s.react = s := by
  rw [State.react_of_some h, hgo]

theorem State.react_of_stopStatus_some {s : State} {o : CoreOutcome} {r : RunStatus} (h : s.outcome = some o)
    (hstop : stopStatus s.params o = some r) : s.react = s.setRun r := by
  rw [State.react_of_some h, hstop]

theorem State.react_of_completed {s : State} (h : s.outcome = some .completed) : s.react = s :=
  State.react_of_stopStatus_none h rfl

theorem State.react_of_halt {s : State} (h : s.outcome = some .halt) : s.react = s.setRun .halted :=
  State.react_of_stopStatus_some h rfl

theorem State.react_of_fault {s : State} {reason : Fault} (h : s.outcome = some (.fault reason)) :
    s.react = s.setRun (.faulted reason) :=
  State.react_of_stopStatus_some h rfl

theorem State.react_of_reserved_ignored {s : State} {op : ReservedOp} (h : s.outcome = some (.reserved op))
    (hignore : s.params.reservedPolicy = .ignore) : s.react = s :=
  State.react_of_stopStatus_none h (by rw [stopStatus, hignore])

theorem State.react_of_reserved_faulting {s : State} {op : ReservedOp} (h : s.outcome = some (.reserved op))
    (hfault : s.params.reservedPolicy = .fault) : s.react = s.setRun (.faulted (.reservedOpcode op)) :=
  State.react_of_stopStatus_some h (by rw [stopStatus, hfault])

theorem State.react_of_unknownTrap_ignored {s : State} {v : Byte} (h : s.outcome = some (.unknownTrap v))
    (hignore : s.params.unknownTrapPolicy = .ignore) : s.react = s :=
  State.react_of_stopStatus_none h (by rw [stopStatus, hignore])

theorem State.react_of_unknownTrap_faulting {s : State} {v : Byte} (h : s.outcome = some (.unknownTrap v))
    (hfault : s.params.unknownTrapPolicy = .fault) : s.react = s.setRun (.faulted (.unknownTrap v)) :=
  State.react_of_stopStatus_some h (by rw [stopStatus, hfault])

/-! ### The reserved opcodes -/

/-- Settles O30: the decoder by the opcode under its mask, the handlers by their definition, and the policies by the
reaction to a reserved outcome. -/
theorem reservedOpcodes : Obligations.ReservedOpcodes :=
  ⟨fun _ hrti => decode_of_rti (decodeOpcode_of_masked hrti (by decide)),
    fun _ hres => decode_of_res (decodeOpcode_of_masked hres (by decide)),
    fun _ _ => ⟨rfl, rfl, fun _ => ⟨fun hignore => State.react_of_reserved_ignored rfl hignore,
      fun hfault => State.react_of_reserved_faulting rfl hfault⟩⟩⟩

/-! ### Runs from a stopped machine -/

theorem run_core_succ_of_next {s t : State} (h : step s = .next t) (k : Nat) :
    Host.Core.run Sys2Proof.core (k + 1) s = Host.Core.run Sys2Proof.core k t := by
  have hstep : Sys2Proof.core.step s = .next t := h
  simp only [Host.Core.run, hstep]

theorem run_core_succ_of_fault {s : State} {reason : Fault} (h : step s = .fault reason) (k : Nat) :
    Host.Core.run Sys2Proof.core (k + 1) s = .fault reason := by
  have hstep : Sys2Proof.core.step s = .fault reason := h
  simp only [Host.Core.run, hstep]

theorem run_core_of_step_self {s : State} (h : step s = .next s) (k : Nat) :
    Host.Core.run Sys2Proof.core k s = .next s := by
  induction k with
  | zero => rfl
  | succ k ih => exact (run_core_succ_of_next h k).trans ih

/-- Settles O42: each outcome by the reaction to it; a halted machine's step answers the same state, and a faulted
one's the recorded fault. -/
theorem reactionToOutcomes : Obligations.ReactionToOutcomes :=
  ⟨fun _ => ⟨State.react_of_completed, State.react_of_halt,
      fun _ h => ⟨State.react_of_reserved_ignored h, State.react_of_reserved_faulting h⟩,
      fun _ h => ⟨State.react_of_unknownTrap_ignored h, State.react_of_unknownTrap_faulting h⟩,
      fun _ => State.react_of_fault⟩,
    fun _ hhalted => run_core_of_step_self (step_halted hhalted),
    fun _ _ hfaulted => run_core_succ_of_fault (step_faulted hfaulted)⟩

end Sys2Proof.Machine
end

section
/-! The operate instructions (spec/41_operate.md): ADD and AND in both modes, and NOT. Each is its decoding, its
rejection under strict mode where its format has fixed bits, and the one shared end of the handlers (R95). -/

namespace Sys2Proof

/-! ### Bits 15–12 and the mode bit under the mask 0xF020 -/

theorem opcodeField_of_modeMasked {w p : Word} (h : w &&& 0xF020 = p) : field w 12 4 = field p 12 4 :=
  field_of_masked h 12 4 (by decide)

theorem modeBit_of_modeMasked {w p : Word} (h : w &&& 0xF020 = p) : bitAt w 5 = bitAt p 5 :=
  bitAt_of_masked h 5 (by decide)

/-! ### The decoder's arms (R76) -/

theorem decode_of_add_register {w : Word} (hop : field w 12 4 = OpCode.add.bits) (hmode : bitAt w 5 = false) :
    decode w = .addR (regField w 9) (regField w 6) (regField w 0) := by
  simp [decode, decodeOpcode_of_field hop, hmode]

theorem decode_of_add_immediate {w : Word} (hop : field w 12 4 = OpCode.add.bits) (hmode : bitAt w 5 = true) :
    decode w = .addI (regField w 9) (regField w 6) (simm w 5) := by
  simp [decode, decodeOpcode_of_field hop, hmode]

theorem decode_of_and_register {w : Word} (hop : field w 12 4 = OpCode.and.bits) (hmode : bitAt w 5 = false) :
    decode w = .andR (regField w 9) (regField w 6) (regField w 0) := by
  simp [decode, decodeOpcode_of_field hop, hmode]

theorem decode_of_and_immediate {w : Word} (hop : field w 12 4 = OpCode.and.bits) (hmode : bitAt w 5 = true) :
    decode w = .andI (regField w 9) (regField w 6) (simm w 5) := by
  simp [decode, decodeOpcode_of_field hop, hmode]

theorem decode_of_not {w : Word} (hop : field w 12 4 = OpCode.not.bits) :
    decode w = .notR (regField w 9) (regField w 6) := by
  simp [decode, decodeOpcode_of_field hop]

end Sys2Proof

namespace Sys2Proof.Machine

/-! ### The fixed bits of the two formats (R77) -/

theorem rejectedStrictly_of_register_mode {w : Word}
    (hop : field w 12 4 = OpCode.add.bits ∨ field w 12 4 = OpCode.and.bits) (hmode : bitAt w 5 = false)
    (hlow : field w 3 2 ≠ 0) : RejectedStrictly w :=
  rejectedStrictly_of_mismatch (.inl ⟨hop, hmode, hlow⟩)

theorem rejectedStrictly_of_not {w : Word} (hop : field w 12 4 = OpCode.not.bits) (hlow : field w 0 6 ≠ 0x3F) :
    RejectedStrictly w :=
  rejectedStrictly_of_mismatch (.inr (.inl ⟨hop, hlow⟩))

/-! ### The handlers -/

/-- The shared end of the flag-setting handlers (R95). A source register equal to `dr` has been read before. -/
theorem ResultWritten.writeResult (s : State) (dr : Reg) (v : Word) :
    ResultWritten dr v s ((s.writeResult dr v).finish .completed) where
  result := State.reg_setReg_same s dr v
  regs _ hr := State.reg_setReg_other s v (List.ne_of_not_mem_cons hr)
  cond := condReflects_condOf v
  pc := rfl
  cells _ := rfl
  channels := ⟨rfl, rfl, rfl, rfl, rfl, rfl⟩
  outcome := rfl

/-- Settles O14: the sum of two words is the sum of their numbers modulo 2^16. -/
theorem addRegister : Obligations.AddRegister := by
  refine ⟨fun w hw => ?_, fun dr sr1 sr2 s => ⟨_, rfl, ?_⟩⟩
  · have hop : field w 12 4 = OpCode.add.bits := opcodeField_of_modeMasked hw
    have hmode : bitAt w 5 = false := modeBit_of_modeMasked hw
    exact ⟨decode_of_add_register hop hmode, rejectedStrictly_of_register_mode (.inl hop) hmode⟩
  · rw [← BitVec.add_def]
    exact .writeResult s dr _

/-- Settles O15: as O14, with the immediate for the second register. -/
theorem addImmediate : Obligations.AddImmediate := by
  refine ⟨fun w hw => ?_, fun dr sr1 imm s => ⟨_, rfl, ?_⟩⟩
  · exact decode_of_add_immediate (opcodeField_of_modeMasked hw) (modeBit_of_modeMasked hw)
  · rw [← BitVec.add_def]
    exact .writeResult s dr _

/-- Settles O16: the handler writes the bitwise AND itself. -/
theorem andRegister : Obligations.AndRegister := by
  refine ⟨fun w hw => ?_, fun dr _ _ s => ⟨_, rfl, .writeResult s dr _⟩⟩
  have hop : field w 12 4 = OpCode.and.bits := opcodeField_of_modeMasked hw
  have hmode : bitAt w 5 = false := modeBit_of_modeMasked hw
  exact ⟨decode_of_and_register hop hmode, rejectedStrictly_of_register_mode (.inr hop) hmode⟩

/-- Settles O17: as O16, with the immediate for the second register. -/
theorem andImmediate : Obligations.AndImmediate :=
  ⟨fun _ hw => decode_of_and_immediate (opcodeField_of_modeMasked hw) (modeBit_of_modeMasked hw),
    fun dr _ _ s => ⟨_, rfl, .writeResult s dr _⟩⟩

/-- Settles O18: the complement is the exclusive or with the word of all ones. -/
theorem notComplements : Obligations.NotComplements := by
  refine ⟨fun w hw => ?_, fun dr sr s => ⟨_, rfl, ?_⟩⟩
  · have hop : field w 12 4 = OpCode.not.bits := field_of_masked hw 12 4 (by decide)
    exact ⟨decode_of_not hop, rejectedStrictly_of_not hop⟩
  · have hnot : 0xFFFF ^^^ s.reg sr = ~~~(s.reg sr) := BitVec.allOnes_xor
    rw [hnot]
    exact .writeResult s dr _

end Sys2Proof.Machine
end

section
/-! The control transfers (spec/42_control.md): BR and its condition match, JMP, and JSR and JSRR with the link. Each
is its decoding and one of two ends of the handlers, a jump that writes no register or one that writes the link. -/

namespace Sys2Proof

/-! ### The decoder's arms (R76) -/

theorem decode_of_br {w : Word} (hop : field w 12 4 = OpCode.br.bits) :
    decode w = .br (bitAt w 11) (bitAt w 10) (bitAt w 9) (simm w 9) := by
  simp [decode, decodeOpcode_of_field hop]

theorem decode_of_jmp {w : Word} (hop : field w 12 4 = OpCode.jmp.bits) : decode w = .jmp (regField w 6) := by
  simp [decode, decodeOpcode_of_field hop]

theorem decode_of_jsr {w : Word} (hop : field w 12 4 = OpCode.jsr.bits) (hmode : bitAt w 11 = true) :
    decode w = .jsr (simm w 11) := by
  simp [decode, decodeOpcode_of_field hop, hmode]

theorem decode_of_jsrr {w : Word} (hop : field w 12 4 = OpCode.jsr.bits) (hmode : bitAt w 11 = false) :
    decode w = .jsrr (regField w 6) := by
  simp [decode, decodeOpcode_of_field hop, hmode]

/-! ### Bits 15–12 and bit 11 under the mask 0xF800 -/

theorem opcodeField_of_linkMasked {w p : Word} (h : w &&& 0xF800 = p) : field w 12 4 = field p 12 4 :=
  field_of_masked h 12 4 (by decide)

theorem linkBit_of_linkMasked {w p : Word} (h : w &&& 0xF800 = p) : bitAt w 11 = bitAt p 11 :=
  bitAt_of_masked h 11 (by decide)

/-! ### Setting bit 11 -/

theorem field_or {m : Word} {lo n : Nat} (h : field m lo n = 0) (w : Word) : field (w ||| m) lo n = field w lo n := by
  simp only [field] at h ⊢
  rw [BitVec.extractLsb'_or, h, BitVec.ofNat_eq_ofNat, BitVec.or_zero]

theorem bitAt_or {m : Word} {i : Nat} (h : bitAt m i = true) (w : Word) : bitAt (w ||| m) i = true := by
  simp only [bitAt] at h ⊢
  rw [BitVec.getLsbD_or, h, Bool.or_true]

/-- A word of opcode 4 with bit 11 set is a JSR with the word's own bits 10–0 as its offset. -/
theorem decode_set_linkBit {w : Word} (hop : field w 12 4 = OpCode.jsr.bits) :
    decode (w ||| 0x0800) = .jsr (simm w 11) := by
  rw [decode_of_jsr ((field_or (by decide) w).trans hop) (bitAt_or (by decide) w), simm, field_or (by decide), simm]

end Sys2Proof

namespace Sys2Proof.Machine

/-! ### The fixed bits of JMP and JSRR (R77) -/

theorem rejectedStrictly_of_jmp {w : Word} (hop : field w 12 4 = OpCode.jmp.bits)
    (hfixed : field w 9 3 ≠ 0 ∨ field w 0 6 ≠ 0) : RejectedStrictly w :=
  rejectedStrictly_of_mismatch (.inr (.inr (.inl ⟨hop, hfixed⟩)))

theorem rejectedStrictly_of_jsrr {w : Word} (hop : field w 12 4 = OpCode.jsr.bits) (hmode : bitAt w 11 = false)
    (hfixed : field w 9 2 ≠ 0 ∨ field w 0 6 ≠ 0) : RejectedStrictly w :=
  rejectedStrictly_of_mismatch (.inr (.inr (.inr (.inl ⟨hop, hmode, hfixed⟩))))

/-! ### The condition match (R132) -/

theorem brMatches_iff (n z p : Bool) (c : Cond) :
    brMatches n z p c = true ↔ (n = true ∧ c = .n) ∨ (z = true ∧ c = .z) ∨ (p = true ∧ c = .p) := by
  cases c <;> simp [brMatches]

/-- The requests as a 3-bit field share a bit with the one-hot flag exactly when the flag is requested. -/
theorem brMatches_iff_and_bits (f : BitVec 3) (c : Cond) :
    brMatches (f.getLsbD 2) (f.getLsbD 1) (f.getLsbD 0) c = true ↔ f &&& c.bits ≠ 0 := by
  cases c <;> revert f <;> decide

/-- Settles O13: the match flag by flag, and the bits of `w[11:9]` as the word's bits 11, 10 and 9. -/
theorem brConditionMatch : Obligations.BrConditionMatch := by
  refine fun w c => ⟨brMatches_iff _ _ _ c, ?_⟩
  have hmask := brMatches_iff_and_bits (field w 9 3) c
  simpa [field, BitVec.getLsbD_extractLsb'] using hmask

/-! ### The two ends of the handlers -/

theorem MovedTo.setPc (s : State) (target : Word) : MovedTo target [] s ((s.setPc target).finish .completed) where
  pc := rfl
  regs _ _ := rfl
  cond := rfl
  cells _ := rfl
  channels := ⟨rfl, rfl, rfl, rfl, rfl, rfl⟩
  outcome := rfl

/-- The state JSR and JSRR end in: the post-increment PC in R7, and the PC at the target. -/
def State.linkTo (s : State) (target : Word) : State := ((s.setReg linkReg s.pc).setPc target).finish .completed

theorem State.linkTo_link (s : State) (target : Word) : (s.linkTo target).reg 7 = s.pc :=
  State.reg_setReg_same s linkReg s.pc

theorem State.linkTo_pc (s : State) (target : Word) : (s.linkTo target).pc = target := rfl

theorem MovedTo.linkTo (s : State) (target : Word) : MovedTo target [7] s (s.linkTo target) where
  pc := rfl
  regs _ hr := State.reg_setReg_other s s.pc (List.ne_of_not_mem_cons hr)
  cond := rfl
  cells _ := rfl
  channels := ⟨rfl, rfl, rfl, rfl, rfl, rfl⟩
  outcome := rfl

/-! ### The handlers -/

/-- A branch not taken leaves the PC where it is (R131). -/
theorem exec_br (n z p : Bool) (off : Word) (s : State) :
    exec (.br n z p off) s =
      .next ((s.setPc (if brMatches n z p s.cond then s.pc + off else s.pc)).finish .completed) := by
  simp only [exec, execBr]
  split <;> rfl

theorem exec_jmp (base : Reg) (s : State) : exec (.jmp base) s = .next ((s.setPc (s.reg base)).finish .completed) :=
  rfl

theorem exec_jsr (off : Word) (s : State) : exec (.jsr off) s = .next (s.linkTo (s.pc + off)) := rfl

/-- The base as JSRR reads it (R135): after the link write R7 holds the link. -/
def State.jsrrTarget (s : State) (base : Reg) : Word :=
  match s.params.jsrrOrder with
  | .linkFirst => if base = 7 then s.pc else s.reg base
  | .baseFirst => s.reg base

theorem State.jsrrTarget_of_linkFirst {s : State} (h : s.params.jsrrOrder = .linkFirst) (base : Reg) :
    s.jsrrTarget base = if base = 7 then s.pc else s.reg base := by
  rw [State.jsrrTarget, h]

theorem State.jsrrTarget_of_baseFirst {s : State} (h : s.params.jsrrOrder = .baseFirst) (base : Reg) :
    s.jsrrTarget base = s.reg base := by
  rw [State.jsrrTarget, h]

/-- Of a base other than R7 the order does not matter. -/
theorem State.jsrrTarget_of_ne_link (s : State) {base : Reg} (hbase : base ≠ 7) : s.jsrrTarget base = s.reg base := by
  cases h : s.params.jsrrOrder with
  | linkFirst => rw [s.jsrrTarget_of_linkFirst h, if_neg hbase]
  | baseFirst => exact s.jsrrTarget_of_baseFirst h base

theorem exec_jsrr (base : Reg) (s : State) : exec (.jsrr base) s = .next (s.linkTo (s.jsrrTarget base)) := by
  cases h : s.params.jsrrOrder with
  | linkFirst =>
    rw [State.jsrrTarget_of_linkFirst h, ← State.reg_setReg]
    simp only [exec, execJsrr, h]
    rfl
  | baseFirst =>
    rw [State.jsrrTarget_of_baseFirst h]
    simp only [exec, execJsrr, h]
    rfl

/-! ### The instructions -/

/-- Settles O19: taken or not, the branch is a jump to the PC it leaves. -/
theorem branchOnCondition : Obligations.BranchOnCondition := by
  refine ⟨fun w hw => decode_of_br (field_of_masked hw 12 4 (by decide)), fun n z p off s => ⟨_, exec_br .., ?_⟩⟩
  simp only [← brMatches_iff]
  exact .setPc s _

/-- Settles O20: the jump reads the base and writes no register, whichever the base is. -/
theorem jumpToRegister : Obligations.JumpToRegister := by
  refine ⟨fun w hw => ?_, fun base s => ⟨_, exec_jmp base s, .setPc s _⟩⟩
  have hop : field w 12 4 = OpCode.jmp.bits := field_of_masked hw 12 4 (by decide)
  exact ⟨decode_of_jmp hop, rejectedStrictly_of_jmp hop⟩

/-- Settles O21: a jump with the link, to the PC-relative address. -/
theorem jsrSavesLinkAndJumps : Obligations.JsrSavesLinkAndJumps :=
  ⟨fun _ hw => decode_of_jsr (opcodeField_of_linkMasked hw) (linkBit_of_linkMasked hw),
    fun off s => ⟨_, exec_jsr off s, s.linkTo_link _, .linkTo s _⟩⟩

/-- Settles O22: a jump with the link, to the base as each order reads it. -/
theorem jsrrSavesLinkAndJumps : Obligations.JsrrSavesLinkAndJumps := by
  refine ⟨fun w hw => ?_, fun base s => ⟨_, exec_jsrr base s, s.linkTo_link _, fun horder => ?_, fun horder => ?_⟩⟩
  · have hop : field w 12 4 = OpCode.jsr.bits := opcodeField_of_linkMasked hw
    have hmode : bitAt w 11 = false := linkBit_of_linkMasked hw
    exact ⟨decode_of_jsrr hop hmode, rejectedStrictly_of_jsrr hop hmode⟩
  · rw [s.jsrrTarget_of_linkFirst horder]
    exact .linkTo s _
  · rw [s.jsrrTarget_of_baseFirst horder]
    exact .linkTo s _

/-- Settles O10: the two decodings by bit 11, and both executions as jumps with the same link. -/
theorem jsrModeBitToggle : Obligations.JsrModeBitToggle := by
  intro w hw
  have hop : field w 12 4 = OpCode.jsr.bits := opcodeField_of_linkMasked hw
  have hjsrr : decode w = .jsrr (regField w 6) := decode_of_jsrr hop (linkBit_of_linkMasked hw)
  have hjsr : decode (w ||| 0x0800) = .jsr (simm w 11) := decode_set_linkBit hop
  refine ⟨hjsrr, hjsr, fun s => ?_⟩
  rw [hjsrr, hjsr]
  exact ⟨_, _, exec_jsrr .., exec_jsr .., s.linkTo_link _, s.linkTo_link _, s.linkTo_pc _,
    fun hbase => (s.linkTo_pc _).trans (s.jsrrTarget_of_ne_link hbase)⟩

end Sys2Proof.Machine
end

section
/-! The loads, LEA and the stores (spec/43_load_store.md). Each is its decoding, its effective address (R154), and one
of three ends of the handlers: a load from the address, the address itself as the result, or a store to the address. -/

namespace Sys2Proof

/-! ### The decoder's arms (R76) -/

theorem decode_of_ld {w : Word} (hop : field w 12 4 = OpCode.ld.bits) :
    decode w = .ld (regField w 9) (simm w 9) := by
  simp [decode, decodeOpcode_of_field hop]

theorem decode_of_ldi {w : Word} (hop : field w 12 4 = OpCode.ldi.bits) :
    decode w = .ldi (regField w 9) (simm w 9) := by
  simp [decode, decodeOpcode_of_field hop]

theorem decode_of_ldr {w : Word} (hop : field w 12 4 = OpCode.ldr.bits) :
    decode w = .ldr (regField w 9) (regField w 6) (simm w 6) := by
  simp [decode, decodeOpcode_of_field hop]

theorem decode_of_lea {w : Word} (hop : field w 12 4 = OpCode.lea.bits) :
    decode w = .lea (regField w 9) (simm w 9) := by
  simp [decode, decodeOpcode_of_field hop]

theorem decode_of_st {w : Word} (hop : field w 12 4 = OpCode.st.bits) :
    decode w = .st (regField w 9) (simm w 9) := by
  simp [decode, decodeOpcode_of_field hop]

theorem decode_of_sti {w : Word} (hop : field w 12 4 = OpCode.sti.bits) :
    decode w = .sti (regField w 9) (simm w 9) := by
  simp [decode, decodeOpcode_of_field hop]

theorem decode_of_str {w : Word} (hop : field w 12 4 = OpCode.str.bits) :
    decode w = .str (regField w 9) (regField w 6) (simm w 6) := by
  simp [decode, decodeOpcode_of_field hop]

end Sys2Proof

namespace Sys2Proof.Machine

/-! ### The ends of the handlers: a load and a store -/

/-- A load is a read, and then the value read as the result (R95). -/
theorem ResultWritten.loadFrom (s : State) (dr : Reg) (ea : Word) :
    ResultWritten dr (s.memRead ea).1 (s.memRead ea).2 (s.loadFrom dr ea) :=
  .writeResult (s.memRead ea).2 dr (s.memRead ea).1

/-- A write leaves every other cell, in the device region and outside it. -/
theorem State.memWrite_read_other {s : State} (hmem : s.mem.wf = true) {a b : Word} (hb : b ≠ a) (v : Word) :
    (s.memWrite a v).mem.read b = s.mem.read b := by
  cases hdev : s.params.inDevice a with
  | true => rw [State.memWrite_device hdev]
  | false => rw [State.memWrite_plain hdev, Mem.read_write hmem, if_neg hb]

/-- A store is one write of the memory port (R45). -/
theorem StoredAt.storeTo {s : State} (hmem : s.mem.wf = true) (ea v : Word) : StoredAt ea v s (s.storeTo ea v) where
  written hdev := by simp [State.storeTo, State.memWrite_plain hdev, Mem.read_write hmem]
  given hdev := by simp [State.storeTo, State.memWrite_device hdev]
  otherCells _ hb := State.memWrite_read_other hmem hb v
  regs q _ := State.memWrite_reg s ea v q
  cond := State.memWrite_cond s ea v
  pc := State.memWrite_pc s ea v
  run := State.memWrite_run s ea v
  consoleIn := State.memWrite_consoleIn s ea v
  deviceIn := State.memWrite_deviceIn s ea v
  drawCount := State.memWrite_drawCount s ea v
  params := State.memWrite_params s ea v
  outcome := rfl

/-! ### The handlers, with their effective addresses (R154) -/

theorem exec_ld (dr : Reg) (off : Word) (s : State) : exec (.ld dr off) s = .next (s.loadFrom dr (s.pc + off)) := rfl

theorem exec_ldi (dr : Reg) (off : Word) (s : State) :
    exec (.ldi dr off) s = .next ((s.memRead (s.pc + off)).2.loadFrom dr (s.memRead (s.pc + off)).1) := rfl

theorem exec_ldr (dr base : Reg) (off : Word) (s : State) :
    exec (.ldr dr base off) s = .next (s.loadFrom dr (s.reg base + off)) := rfl

theorem exec_lea (dr : Reg) (off : Word) (s : State) :
    exec (.lea dr off) s = .next ((s.writeResult dr (s.pc + off)).finish .completed) := rfl

theorem exec_st (sr : Reg) (off : Word) (s : State) :
    exec (.st sr off) s = .next (s.storeTo (s.pc + off) (s.reg sr)) := rfl

theorem exec_sti (sr : Reg) (off : Word) (s : State) :
    exec (.sti sr off) s = .next ((s.memRead (s.pc + off)).2.storeTo (s.memRead (s.pc + off)).1 (s.reg sr)) := rfl

theorem exec_str (sr base : Reg) (off : Word) (s : State) :
    exec (.str sr base off) s = .next (s.storeTo (s.reg base + off) (s.reg sr)) := rfl

/-! ### The instructions -/

/-- Settles O23: a load from the PC-relative address. -/
theorem loadPcRelative : Obligations.LoadPcRelative :=
  ⟨fun _ hw => decode_of_ld (field_of_masked hw 12 4 (by decide)),
    fun dr off s => ⟨_, _, _, s.memRead_gives _, exec_ld dr off s, .loadFrom s dr _⟩⟩

/-- Settles O24: a load from the pointer, in the state the read of the pointer leaves. -/
theorem loadIndirect : Obligations.LoadIndirect := by
  refine ⟨fun w hw => decode_of_ldi (field_of_masked hw 12 4 (by decide)), fun dr off s => ?_⟩
  have hptr := s.memRead_gives (s.pc + off)
  exact ⟨_, _, _, _, _, hptr, State.memRead_gives _ _, exec_ldi dr off s, .loadFrom _ dr _⟩

/-- Settles O25: a load from base plus offset; the base is read in the state before the load. -/
theorem loadBaseOffset : Obligations.LoadBaseOffset :=
  ⟨fun _ hw => decode_of_ldr (field_of_masked hw 12 4 (by decide)),
    fun dr base off s => ⟨_, _, _, s.memRead_gives _, exec_ldr dr base off s, .loadFrom s dr _⟩⟩

/-- Settles O26: the PC-relative address is itself the result, and the state has gone through no read. -/
theorem loadEffectiveAddress : Obligations.LoadEffectiveAddress :=
  ⟨fun _ hw => decode_of_lea (field_of_masked hw 12 4 (by decide)),
    fun dr off s => ⟨_, exec_lea dr off s, .writeResult s dr _⟩⟩

/-- Settles O27: a store to the PC-relative address. -/
theorem storePcRelative : Obligations.StorePcRelative :=
  ⟨fun _ hw => decode_of_st (field_of_masked hw 12 4 (by decide)),
    fun sr off s hmem => ⟨_, exec_st sr off s, .storeTo hmem _ _⟩⟩

/-- Settles O28: the read of the pointer keeps the memory canonical, and the store is at the pointer. -/
theorem storeIndirect : Obligations.StoreIndirect := by
  refine ⟨fun w hw => decode_of_sti (field_of_masked hw 12 4 (by decide)), fun sr off s hmem => ?_⟩
  have hmem1 : (s.memRead (s.pc + off)).2.mem.wf = true := by rwa [State.memRead_mem]
  exact ⟨_, _, _, s.memRead_gives _, exec_sti sr off s, .storeTo hmem1 _ _⟩

/-- Settles O29: a store to base plus offset; the base may be the register stored. -/
theorem storeBaseOffset : Obligations.StoreBaseOffset :=
  ⟨fun _ hw => decode_of_str (field_of_masked hw 12 4 (by decide)),
    fun sr base off s hmem => ⟨_, exec_str sr base off s, .storeTo hmem _ _⟩⟩

end Sys2Proof.Machine
end

section
/-! TRAP's services (spec/44_trap.md). Every service starts from the state after the link write (R181): a service is
followed operation by operation as `ServiceDone`, the two input services share one wait, and the two string services
share one loop over a run of words. -/

namespace Sys2Proof.Machine

/-! ### The operations of a service -/

section
variable {changed : List Reg} {bytes : List Byte} {s t : State}

theorem ServiceDone.emit (h : ServiceDone changed bytes s t) (bs : List Byte) :
    ServiceDone changed (bytes ++ bs) s (t.emit bs) :=
  { h with output := by rw [State.emit_output, h.output, List.map_append, List.append_assoc] }

theorem ServiceDone.finish (h : ServiceDone changed bytes s t) (o : CoreOutcome) :
    ServiceDone changed bytes s (t.finish o) := { h with }

theorem ServiceDone.setConsoleIn (h : ServiceDone changed bytes s t) (chars : List Byte) :
    ServiceDone changed bytes s (t.setConsoleIn chars) := { h with }

theorem ServiceDone.hold (h : ServiceDone changed bytes s t) (svc : InputService) :
    ServiceDone changed bytes { s with run := .held svc } (t.hold svc) := { h with run := rfl }

theorem ServiceDone.setReg (h : ServiceDone changed bytes s t) {r : Reg} (hr : r ≠ 7) (v : Word) :
    ServiceDone (r :: changed) bytes s (t.setReg r v) :=
  { h with
    link := (State.reg_setReg_other t v hr.symm).trans h.link
    regs := by
      intro q hq
      simp only [List.mem_cons, not_or] at hq
      obtain ⟨hq7, hqr, hqc⟩ := hq
      rw [State.reg_setReg_other t v hqr]
      exact h.regs q (by simp [hq7, hqc]) }

theorem ServiceDone.finishInput (h : ServiceDone changed bytes s t) (svc : InputService) (c : Byte) :
    ServiceDone (0 :: changed) (bytes ++ echoBytes t.params c svc) s (t.finishInput svc c) :=
  ((h.emit _).setReg (by decide) _).finish _

end

theorem SameInputs.saveLink (s : State) : SameInputs s s.saveLink :=
  ⟨s.saveLink_consoleIn, s.saveLink_deviceIn, s.saveLink_drawCount⟩

theorem SameInputs.emit {s t : State} (h : SameInputs s t) (bs : List Byte) : SameInputs s (t.emit bs) := { h with }

theorem SameInputs.finish {s t : State} (h : SameInputs s t) (o : CoreOutcome) : SameInputs s (t.finish o) := { h with }

theorem SameInputs.hold {s t : State} (h : SameInputs s t) (svc : InputService) : SameInputs s (t.hold svc) := { h with }

/-- The link write leaves the registers the services read. -/
theorem State.saveLink_reg_of_ne_link (s : State) {q : Reg} (hq : q ≠ 7) : s.saveLink.reg q = s.reg q := by
  rw [s.saveLink_reg, if_neg fun h => hq h.2]

/-! ### The vectors (R182) -/

theorem exec_trap_getc (s : State) : exec (.trap 0x20) s = .next (s.saveLink.awaitInput .getc) := rfl

theorem exec_trap_out (s : State) :
    exec (.trap 0x21) s = .next ((s.saveLink.emit [lowByte (s.reg 0)]).finish .completed) := by
  rw [← s.saveLink_reg_of_ne_link (by decide)]
  rfl

theorem exec_trap_in (s : State) :
    exec (.trap 0x23) s = .next ((s.saveLink.emit s.params.inPrompt).awaitInput .input) := by
  rw [← s.saveLink_params]
  rfl

theorem exec_trap_halt (s : State) :
    exec (.trap 0x25) s = .next ((s.saveLink.emit s.params.haltMessage).finish .halt) := by
  rw [← s.saveLink_params]
  rfl

theorem exec_trap_unknown {v : Byte} (hv : v.toNat < 0x20 ∨ 0x25 < v.toNat) (s : State) :
    exec (.trap v) s = .next (s.saveLink.finish (.unknownTrap v)) := by
  have hne : ∀ k : Byte, 0x20 ≤ k.toNat → k.toNat ≤ 0x25 → v ≠ k := by
    rintro _ hlo hhi rfl
    omega
  have hservice : s.saveLink.trapService v = s.saveLink.trapUnknown v := by
    simp [State.trapService, hne]
  exact congrArg _ hservice

/-! ### The input services -/

section
variable {bytes : List Byte} {s u : State}

/-- Without a character the trap is held, in the state it began to wait in (R191). -/
theorem ServiceDone.awaitInput_nil (hdone : ServiceDone [] bytes s u) (hin : SameInputs s u) (hnone : s.consoleIn = [])
    (svc : InputService) :
    ServiceDone [] bytes { s with run := .held svc } (u.awaitInput svc) ∧ SameInputs s (u.awaitInput svc) ∧
      (u.awaitInput svc).outcome = none := by
  rw [State.awaitInput_nil (hin.consoleIn.trans hnone)]
  exact ⟨hdone.hold svc, hin.hold svc, rfl⟩

/-- With a character the service takes it, echoes as it does, and puts it in R0. -/
theorem ServiceDone.awaitInput_cons (hdone : ServiceDone [] bytes s u) (hin : SameInputs s u) {c : Byte}
    {rest : List Byte} (hchar : s.consoleIn = c :: rest) (svc : InputService) :
    ServiceDone [0] (bytes ++ echoBytes s.params c svc) s (u.awaitInput svc) ∧
      (u.awaitInput svc).reg 0 = BitVec.ofNat 16 c.toNat ∧ (u.awaitInput svc).consoleIn = rest ∧
      (u.awaitInput svc).deviceIn = s.deviceIn ∧ (u.awaitInput svc).drawCount = s.drawCount ∧
      (u.awaitInput svc).outcome = some .completed := by
  rw [State.awaitInput_cons (hin.consoleIn.trans hchar), ← hdone.params]
  exact ⟨(hdone.setConsoleIn rest).finishInput svc c, by rw [State.finishInput_reg, if_pos rfl], rfl, hin.deviceIn,
    hin.drawCount, rfl⟩

end

/-- By default IN's echo is the character itself (R190). -/
theorem Params.echo_of_no_exceptions {p : Params} (h : p.inEcho = []) (c : Byte) : p.echo c = [c] := by
  rw [Params.echo, h]
  rfl

/-- Settles O32: the wait right after the link write, with nothing to echo. -/
theorem getcReadsCharacter : Obligations.GetcReadsCharacter :=
  ⟨fun s hnone => ⟨_, exec_trap_getc s, s.saveLink_done.awaitInput_nil (.saveLink s) hnone .getc⟩,
    fun s _ _ hchar => ⟨_, exec_trap_getc s, s.saveLink_done.awaitInput_cons (.saveLink s) hchar .getc⟩⟩

/-- Settles O35: the wait after the link write and the prompt. -/
theorem inPromptsAndReads : Obligations.InPromptsAndReads := by
  have hprompt (s : State) : ServiceDone [] s.params.inPrompt s (s.saveLink.emit s.params.inPrompt) :=
    s.saveLink_done.emit _
  have hin (s : State) : SameInputs s (s.saveLink.emit s.params.inPrompt) := (SameInputs.saveLink s).emit _
  exact ⟨fun s hnone => ⟨_, exec_trap_in s, (hprompt s).awaitInput_nil (hin s) hnone .input⟩,
    fun s c _ hchar => ⟨⟨_, exec_trap_in s, (hprompt s).awaitInput_cons (hin s) hchar .input⟩,
      fun hdefault => Params.echo_of_no_exceptions hdefault c⟩⟩

/-! ### The services without input -/

/-- Settles O33: one output after the link write, of the R0 that write leaves. -/
theorem outWritesLowByte : Obligations.OutWritesLowByte :=
  fun s => ⟨_, exec_trap_out s, (s.saveLink_done.emit _).finish _, ((SameInputs.saveLink s).emit _).finish _, rfl⟩

/-- Settles O38: the message after the link write, and the stop by the reaction to `Halt`. -/
theorem haltStops : Obligations.HaltStops := by
  refine fun s => ⟨_, exec_trap_halt s, (s.saveLink_done.emit _).finish _, ((SameInputs.saveLink s).emit _).finish _,
    rfl, State.react_of_halt rfl, ?_⟩
  rw [State.react_of_halt rfl]
  exact step_halted rfl

/-- Settles O39: no vector of the table is met, and the policies decide the reaction to `UnknownTrap(v)`. -/
theorem unknownVector : Obligations.UnknownVector := by
  intro v s hv
  have hparams : (s.saveLink.finish (.unknownTrap v)).params = s.params := s.saveLink_params
  exact ⟨_, exec_trap_unknown hv s, s.saveLink_done.finish _, (SameInputs.saveLink s).finish _, rfl,
    fun hfault => State.react_of_unknownTrap_faulting rfl (by rw [hparams, hfault]),
    fun hignore => State.react_of_unknownTrap_ignored rfl (by rw [hparams, hignore])⟩

/-! ### The string services -/

/-- The state PUTS and PUTSP end in, with the bytes each outputs for a word (R185, R186). -/
def State.stringTrap (bytes : Word → List Byte) (s : State) : State :=
  State.stringLoop bytes 65536 (s.saveLink.reg 0) s.saveLink

theorem exec_trap_puts (s : State) : exec (.trap 0x22) s = .next (s.stringTrap putsBytes) := by
  rw [State.stringTrap, ← State.trapPuts]
  rfl

theorem exec_trap_putsp (s : State) : exec (.trap 0x24) s = .next (s.stringTrap putspBytes) := by
  rw [State.stringTrap, ← State.trapPutsp]
  rfl

/-- The state, with the device-region reads answered that lead to `s'`. -/
def State.withDraws (s s' : State) : State := { s with deviceIn := s'.deviceIn, drawCount := s'.drawCount }

theorem ServiceDone.withDraws {changed : List Reg} {bytes : List Byte} {s t : State}
    (h : ServiceDone changed bytes s t) (s' : State) : ServiceDone changed bytes s (t.withDraws s') := { h with }

theorem ReadGives.consoleIn {s s1 : State} {a v : Word} (h : ReadGives s a v s1) : s1.consoleIn = s.consoleIn := by
  obtain ⟨-, -, rfl⟩ | ⟨-, -, -, rfl⟩ | ⟨-, -, -, rfl⟩ := h <;> rfl

theorem WordsRead.consoleIn {s s1 : State} {a : Word} {ws : List Word} (h : WordsRead s a ws s1) :
    s1.consoleIn = s.consoleIn := by
  induction h with
  | nil => rfl
  | cons hread _ _ ih => exact ih.trans hread.consoleIn

/-- What the two ends of the loop have in common: the words' bytes are out, and the inputs are as the reads left
them. -/
theorem State.stringTrap_end (s s' : State) (bs : List Byte) (o : CoreOutcome) (hchars : s'.consoleIn = s.consoleIn) :
    ServiceDone [] bs s (((s.saveLink.emit bs).withDraws s').finish o) ∧
      SameInputs s' (((s.saveLink.emit bs).withDraws s').finish o) ∧
      (((s.saveLink.emit bs).withDraws s').finish o).outcome = some o :=
  ⟨((s.saveLink_done.emit bs).withDraws s').finish o, ⟨s.saveLink_consoleIn.trans hchars.symm, rfl, rfl⟩, rfl⟩

section
variable (bytes : Word → List Byte) {s s1 s2 : State} {ws : List Word}

/-- Over a run of words from R0, the loop goes on after them with their bytes output. -/
theorem State.stringTrap_words (hws : WordsRead s (s.reg 0) ws s1) {n : Nat} (hn : n + ws.length = 65536) :
    s.stringTrap bytes = State.stringLoop bytes n (s.reg 0 + BitVec.ofNat 16 ws.length)
      ((s.saveLink.emit (ws.flatMap bytes)).withDraws s1) := by
  rw [State.stringTrap, ← hn, s.saveLink_reg_of_ne_link (by decide)]
  exact State.stringLoop_words bytes hws s.saveLink n s.saveLink_params s.saveLink_mem s.saveLink_deviceIn
    s.saveLink_drawCount

theorem State.stringTrap_terminated (hws : WordsRead s (s.reg 0) ws s1)
    (hzero : ReadGives s1 (s.reg 0 + BitVec.ofNat 16 ws.length) 0 s2) (hlen : ws.length < 65536) :
    s.stringTrap bytes = ((s.saveLink.emit (ws.flatMap bytes)).withDraws s2).finish .completed := by
  obtain ⟨hparams, hmem⟩ := hws.same
  have hread := hzero.congr (u := (s.saveLink.emit (ws.flatMap bytes)).withDraws s1)
    (s.saveLink_params.trans hparams.symm) (s.saveLink_mem.trans hmem.symm) rfl rfl
  rw [State.stringTrap_words bytes hws (n := 65535 - ws.length + 1) (by omega)]
  exact State.stringLoop_terminator bytes hread _

theorem State.stringTrap_unterminated (hws : WordsRead s (s.reg 0) ws s1) (hlen : ws.length = 65536) :
    s.stringTrap bytes =
      ((s.saveLink.emit (ws.flatMap bytes)).withDraws s1).finish (.fault .unterminatedString) :=
  State.stringTrap_words bytes hws (n := 0) (by omega)

theorem State.stringTrap_completes (hws : WordsRead s (s.reg 0) ws s1)
    (hzero : ReadGives s1 (s.reg 0 + BitVec.ofNat 16 ws.length) 0 s2) (hlen : ws.length < 65536) :
    ServiceDone [] (ws.flatMap bytes) s (s.stringTrap bytes) ∧ SameInputs s2 (s.stringTrap bytes) ∧
      (s.stringTrap bytes).outcome = some .completed := by
  rw [State.stringTrap_terminated bytes hws hzero hlen]
  exact State.stringTrap_end s s2 _ _ (hzero.consoleIn.trans hws.consoleIn)

theorem State.stringTrap_faults (hws : WordsRead s (s.reg 0) ws s1) (hlen : ws.length = 65536) :
    ServiceDone [] (ws.flatMap bytes) s (s.stringTrap bytes) ∧ SameInputs s1 (s.stringTrap bytes) ∧
      (s.stringTrap bytes).outcome = some (.fault .unterminatedString) := by
  rw [State.stringTrap_unterminated bytes hws hlen]
  exact State.stringTrap_end s s1 _ _ hws.consoleIn

end

theorem flatMap_putsBytes (ws : List Word) : ws.flatMap putsBytes = ws.map fun v => v.extractLsb' 0 8 :=
  (List.map_eq_flatMap ..).symm

theorem putspBytes_eq (v : Word) :
    putspBytes v = v.extractLsb' 0 8 :: if v.extractLsb' 8 8 = 0 then [] else [v.extractLsb' 8 8] := by
  rw [apply_ite (List.cons _)]
  rfl

/-- Settles O34: the two ends of the loop, with one byte for each word. -/
theorem putsWritesString : Obligations.PutsWritesString := by
  intro s s1 ws hws
  rw [← flatMap_putsBytes]
  exact ⟨fun s2 hzero hlen => ⟨_, exec_trap_puts s, State.stringTrap_completes putsBytes hws hzero hlen⟩,
    fun hlen => ⟨_, exec_trap_puts s, State.stringTrap_faults putsBytes hws hlen⟩⟩

/-- Settles O36: the two ends of the loop, with one byte or two for each word. -/
theorem putspWritesPackedString : Obligations.PutspWritesPackedString := by
  intro s s1 ws hws
  simp only [← putspBytes_eq]
  exact ⟨fun s2 hzero hlen => ⟨_, exec_trap_putsp s, State.stringTrap_completes putspBytes hws hzero hlen⟩,
    fun hlen => ⟨_, exec_trap_putsp s, State.stringTrap_faults putspBytes hws hlen⟩⟩

/-- Reading from any address on meets a 0x0000 word within `n` words, or reads `n` words without one. -/
theorem exists_wordsRead (n : Nat) (s : State) (a : Word) : ∃ ws s1, WordsRead s a ws s1 ∧
    ((ws.length < n ∧ ∃ s2, ReadGives s1 (a + BitVec.ofNat 16 ws.length) 0 s2) ∨ ws.length = n) := by
  induction n generalizing s a with
  | zero => exact ⟨[], s, .nil s a, .inr rfl⟩
  | succ n ih =>
    have hread := s.memRead_gives a
    by_cases hzero : (s.memRead a).1 = 0
    · rw [hzero] at hread
      exact ⟨[], s, .nil s a, .inl ⟨n.succ_pos, _, by simpa using hread⟩⟩
    · obtain ⟨ws, s1, hws, hend⟩ := ih (s.memRead a).2 (a + 1)
      have haddr : a + BitVec.ofNat 16 (ws.length + 1) = a + 1 + BitVec.ofNat 16 ws.length := by
        rw [Nat.add_comm, BitVec.ofNat_add, ← BitVec.add_assoc]
        rfl
      refine ⟨_ :: ws, s1, .cons hread hzero hws, ?_⟩
      rw [List.length_cons, haddr]
      exact hend.imp (fun ⟨hlen, hterm⟩ => ⟨Nat.succ_lt_succ hlen, hterm⟩) (congrArg Nat.succ)

theorem State.stringTrap_ends (bytes : Word → List Byte) (s : State) : ∃ ws s1, WordsRead s (s.reg 0) ws s1 ∧
    ((ws.length < 65536 ∧ (∃ s2, ReadGives s1 (s.reg 0 + BitVec.ofNat 16 ws.length) 0 s2 ∧
        SameInputs s2 (s.stringTrap bytes)) ∧ (s.stringTrap bytes).outcome = some .completed) ∨
      (ws.length = 65536 ∧ SameInputs s1 (s.stringTrap bytes) ∧
        (s.stringTrap bytes).outcome = some (.fault .unterminatedString))) := by
  obtain ⟨ws, s1, hws, ⟨hlen, s2, hzero⟩ | hlen⟩ := exists_wordsRead 65536 s (s.reg 0)
  · obtain ⟨-, hin, hout⟩ := State.stringTrap_completes bytes hws hzero hlen
    exact ⟨ws, s1, hws, .inl ⟨hlen, ⟨s2, hzero, hin⟩, hout⟩⟩
  · obtain ⟨-, hin, hout⟩ := State.stringTrap_faults bytes hws hlen
    exact ⟨ws, s1, hws, .inr ⟨hlen, hin, hout⟩⟩

/-- Settles O37: one of the two runs of words exists from every state, and each gives its end of the loop. -/
theorem stringTrapsEndOrFault : Obligations.StringTrapsEndOrFault := by
  rintro v s (rfl | rfl)
  · obtain ⟨ws, s1, hend⟩ := s.stringTrap_ends putsBytes
    exact ⟨_, ws, s1, exec_trap_puts s, hend⟩
  · obtain ⟨ws, s1, hend⟩ := s.stringTrap_ends putspBytes
    exact ⟨_, ws, s1, exec_trap_putsp s, hend⟩

end Sys2Proof.Machine
end

section
/-! The round trips of decoding and encoding (spec/30_encoding.md R74, R76). Each format is said once, as the fields a
word has exactly when it is the encoded one; both round trips read it, one in each direction. -/

namespace Sys2Proof

/-! ### The formats, field by field (R74) -/

theorem regField_eq_iff {w : Word} {lo : Nat} {r : Reg} : regField w lo = r ↔ w.toNat / 2 ^ lo % 8 = r.val := by
  rw [← regField_val, Fin.ext_iff]

theorem bitAt_eq_iff {w : Word} {i : Nat} {b : Bool} : bitAt w i = b ↔ w.toNat / 2 ^ i % 2 = b.toNat := by
  rw [bitAt_eq]
  cases b <;> simp

section
variable {op : OpCode} {r sr1 sr2 base : Reg} {off : Word} {w : Word}

theorem encodeOpr_eq_iff : encodeOpr op r sr1 sr2 = w ↔ field w 12 4 = op.bits ∧ regField w 9 = r ∧
    regField w 6 = sr1 ∧ bitAt w 5 = false ∧ field w 3 2 = 0 ∧ regField w 0 = sr2 := by
  have hop := op.bits.isLt
  have hw := w.isLt
  simp only [← BitVec.toNat_inj, encodeOpr, toNat_append_add, regBits_toNat, field_toNat,
    regField_eq_iff, bitAt_eq_iff]
  simp
  omega

theorem encodeOpi_eq_iff : encodeOpi op r sr1 off = w ↔ field w 12 4 = op.bits ∧ regField w 9 = r ∧
    regField w 6 = sr1 ∧ bitAt w 5 = true ∧ field w 0 5 = lowBits 5 off := by
  have hop := op.bits.isLt
  have hw := w.isLt
  simp only [← BitVec.toNat_inj, encodeOpi, toNat_append_add, regBits_toNat, field_toNat,
    regField_eq_iff, bitAt_eq_iff]
  simp
  omega

theorem encodePcr_eq_iff : encodePcr op r off = w ↔
    field w 12 4 = op.bits ∧ regField w 9 = r ∧ field w 0 9 = lowBits 9 off := by
  have hop := op.bits.isLt
  have hw := w.isLt
  simp only [← BitVec.toNat_inj, encodePcr, toNat_append_add, regBits_toNat, field_toNat,
    regField_eq_iff]
  omega

theorem encodeBof_eq_iff : encodeBof op r base off = w ↔
    field w 12 4 = op.bits ∧ regField w 9 = r ∧ regField w 6 = base ∧ field w 0 6 = lowBits 6 off := by
  have hop := op.bits.isLt
  have hw := w.isLt
  simp only [← BitVec.toNat_inj, encodeBof, toNat_append_add, regBits_toNat, field_toNat,
    regField_eq_iff]
  omega

theorem encode_notR_eq_iff : encode (.notR r sr1) = w ↔
    field w 12 4 = OpCode.not.bits ∧ regField w 9 = r ∧ regField w 6 = sr1 ∧ field w 0 6 = 0x3F := by
  have hw := w.isLt
  simp only [← BitVec.toNat_inj, encode, toNat_append_add, regBits_toNat, field_toNat,
    regField_eq_iff, OpCode.bits]
  simp
  omega

theorem encode_br_eq_iff {n z p : Bool} : encode (.br n z p off) = w ↔ field w 12 4 = OpCode.br.bits ∧
    bitAt w 11 = n ∧ bitAt w 10 = z ∧ bitAt w 9 = p ∧ field w 0 9 = lowBits 9 off := by
  have hn := n.toNat_le
  have hz := z.toNat_le
  have hp := p.toNat_le
  have hw := w.isLt
  simp only [← BitVec.toNat_inj, encode, toNat_append_add, ofBool_toNat, field_toNat,
    bitAt_eq_iff, OpCode.bits]
  simp
  omega

theorem encode_jmp_eq_iff : encode (.jmp base) = w ↔
    field w 12 4 = OpCode.jmp.bits ∧ field w 9 3 = 0 ∧ regField w 6 = base ∧ field w 0 6 = 0 := by
  have hw := w.isLt
  simp only [← BitVec.toNat_inj, encode, toNat_append_add, regBits_toNat, field_toNat,
    regField_eq_iff, OpCode.bits]
  simp
  omega

theorem encode_jsr_eq_iff : encode (.jsr off) = w ↔
    field w 12 4 = OpCode.jsr.bits ∧ bitAt w 11 = true ∧ field w 0 11 = lowBits 11 off := by
  have hw := w.isLt
  simp only [← BitVec.toNat_inj, encode, toNat_append_add, field_toNat, bitAt_eq_iff, OpCode.bits]
  simp
  omega

theorem encode_jsrr_eq_iff : encode (.jsrr base) = w ↔ field w 12 4 = OpCode.jsr.bits ∧ bitAt w 11 = false ∧
    field w 9 2 = 0 ∧ regField w 6 = base ∧ field w 0 6 = 0 := by
  have hw := w.isLt
  simp only [← BitVec.toNat_inj, encode, toNat_append_add, regBits_toNat, field_toNat,
    regField_eq_iff, bitAt_eq_iff, OpCode.bits]
  simp
  omega

theorem encode_trap_eq_iff {v : Byte} : encode (.trap v) = w ↔
    field w 12 4 = OpCode.trap.bits ∧ field w 8 4 = 0 ∧ field w 0 8 = v := by
  have hv := v.isLt
  have hw := w.isLt
  simp only [← BitVec.toNat_inj, encode, toNat_append_add, field_toNat, OpCode.bits]
  simp
  omega
end

/-! ### Decoding what was encoded -/

theorem lowBits_sext {n : Nat} (hn : n ≤ 16) (f : BitVec n) : lowBits n (sext n f) = f := by
  ext i hi
  have hi16 : i < 16 := by omega
  simp [lowBits, sext, BitVec.getElem_signExtend, hi, hi16]

theorem lowBits_simm {n : Nat} (hn : n ≤ 16) (w : Word) : lowBits n (simm w n) = field w 0 n := lowBits_sext hn _

theorem decode_of_trap {w : Word} (hop : field w 12 4 = OpCode.trap.bits) : decode w = .trap (field w 0 8) := by
  simp [decode, decodeOpcode_of_field hop]

/-- Settles O4: the encoded word has the fields of its format, and a well-formed offset is the sign extension of the
bits stored. -/
theorem decodeEncodeRoundTrip : Obligations.DecodeEncodeRoundTrip := by
  intro i hwf
  cases i with
  | addR =>
    obtain ⟨hop, hdr, hsr1, hmode, -, hsr2⟩ := encodeOpr_eq_iff.1 rfl
    rw [encode, decode_of_add_register hop hmode, hdr, hsr1, hsr2]
  | addI =>
    obtain ⟨hop, hdr, hsr1, hmode, himm⟩ := encodeOpi_eq_iff.1 rfl
    rw [encode, decode_of_add_immediate hop hmode, hdr, hsr1, simm, himm, sext_lowBits_imm5 hwf]
  | andR =>
    obtain ⟨hop, hdr, hsr1, hmode, -, hsr2⟩ := encodeOpr_eq_iff.1 rfl
    rw [encode, decode_of_and_register hop hmode, hdr, hsr1, hsr2]
  | andI =>
    obtain ⟨hop, hdr, hsr1, hmode, himm⟩ := encodeOpi_eq_iff.1 rfl
    rw [encode, decode_of_and_immediate hop hmode, hdr, hsr1, simm, himm, sext_lowBits_imm5 hwf]
  | notR =>
    obtain ⟨hop, hdr, hsr, -⟩ := encode_notR_eq_iff.1 rfl
    rw [decode_of_not hop, hdr, hsr]
  | br =>
    obtain ⟨hop, hn, hz, hp, hoff⟩ := encode_br_eq_iff.1 rfl
    rw [decode_of_br hop, hn, hz, hp, simm, hoff, sext_lowBits_offset9 hwf]
  | jmp =>
    obtain ⟨hop, -, hbase, -⟩ := encode_jmp_eq_iff.1 rfl
    rw [decode_of_jmp hop, hbase]
  | jsr =>
    obtain ⟨hop, hmode, hoff⟩ := encode_jsr_eq_iff.1 rfl
    rw [decode_of_jsr hop hmode, simm, hoff, sext_lowBits_offset11 hwf]
  | jsrr =>
    obtain ⟨hop, hmode, -, hbase, -⟩ := encode_jsrr_eq_iff.1 rfl
    rw [decode_of_jsrr hop hmode, hbase]
  | ld =>
    obtain ⟨hop, hr, hoff⟩ := encodePcr_eq_iff.1 rfl
    rw [encode, decode_of_ld hop, hr, simm, hoff, sext_lowBits_offset9 hwf]
  | ldi =>
    obtain ⟨hop, hr, hoff⟩ := encodePcr_eq_iff.1 rfl
    rw [encode, decode_of_ldi hop, hr, simm, hoff, sext_lowBits_offset9 hwf]
  | ldr =>
    obtain ⟨hop, hr, hbase, hoff⟩ := encodeBof_eq_iff.1 rfl
    rw [encode, decode_of_ldr hop, hr, hbase, simm, hoff, sext_lowBits_offset6 hwf]
  | lea =>
    obtain ⟨hop, hr, hoff⟩ := encodePcr_eq_iff.1 rfl
    rw [encode, decode_of_lea hop, hr, simm, hoff, sext_lowBits_offset9 hwf]
  | st =>
    obtain ⟨hop, hr, hoff⟩ := encodePcr_eq_iff.1 rfl
    rw [encode, decode_of_st hop, hr, simm, hoff, sext_lowBits_offset9 hwf]
  | sti =>
    obtain ⟨hop, hr, hoff⟩ := encodePcr_eq_iff.1 rfl
    rw [encode, decode_of_sti hop, hr, simm, hoff, sext_lowBits_offset9 hwf]
  | str =>
    obtain ⟨hop, hr, hbase, hoff⟩ := encodeBof_eq_iff.1 rfl
    rw [encode, decode_of_str hop, hr, hbase, simm, hoff, sext_lowBits_offset6 hwf]
  | trap =>
    obtain ⟨hop, -, hv⟩ := encode_trap_eq_iff.1 rfl
    rw [decode_of_trap hop, hv]
  | rti raw => exact decode_of_rti (decodeOpcode_of_field (Laws.OpcodeField.rti raw hwf))
  | res raw => exact decode_of_res (decodeOpcode_of_field (Laws.OpcodeField.res raw hwf))

/-! ### Encoding what was decoded -/

/-- Settles O5: the word has the fields of its decoded form, and the fixed bits are the fields no operand fills. -/
theorem encodeDecodeRestoresWord : Obligations.EncodeDecodeRestoresWord := by
  intro w hfixed
  have hfield := (decodeOpcode_eq_iff w _).1 rfl
  cases hop : decodeOpcode w with rw [hop] at hfield
  | add | and =>
    cases hmode : bitAt w 5 with simp [fixedBitsDiffer, decode, hop, hmode] at hfixed ⊢
    | false => exact encodeOpr_eq_iff.2 ⟨hfield, rfl, rfl, hmode, hfixed, rfl⟩
    | true => exact encodeOpi_eq_iff.2 ⟨hfield, rfl, rfl, hmode, (lowBits_simm (by decide) w).symm⟩
  | jsr =>
    cases hmode : bitAt w 11 with simp [fixedBitsDiffer, decode, hop, hmode] at hfixed ⊢
    | false => exact encode_jsrr_eq_iff.2 ⟨hfield, hmode, hfixed.1, rfl, hfixed.2⟩
    | true => exact encode_jsr_eq_iff.2 ⟨hfield, hmode, (lowBits_simm (by decide) w).symm⟩
  | not =>
    simp [fixedBitsDiffer, decode, hop] at hfixed ⊢
    exact encode_notR_eq_iff.2 ⟨hfield, rfl, rfl, hfixed⟩
  | jmp =>
    simp [fixedBitsDiffer, decode, hop] at hfixed ⊢
    exact encode_jmp_eq_iff.2 ⟨hfield, hfixed.1, rfl, hfixed.2⟩
  | trap =>
    simp [fixedBitsDiffer, decode, hop] at hfixed ⊢
    exact encode_trap_eq_iff.2 ⟨hfield, hfixed, rfl⟩
  | br =>
    rw [decode_of_br hfield]
    exact encode_br_eq_iff.2 ⟨hfield, rfl, rfl, rfl, (lowBits_simm (by decide) w).symm⟩
  | ld | ldi | lea | st | sti =>
    simp only [decode, hop]
    exact encodePcr_eq_iff.2 ⟨hfield, rfl, (lowBits_simm (by decide) w).symm⟩
  | ldr | str =>
    simp only [decode, hop]
    exact encodeBof_eq_iff.2 ⟨hfield, rfl, rfl, (lowBits_simm (by decide) w).symm⟩
  | rti | res => simp only [decode, hop, encode]

/-- Settles O6: an offset or immediate is the sign extension of its field, and a reserved word is kept with its tag. -/
theorem decodedIsWellFormed : Obligations.DecodedIsWellFormed := by
  intro w
  unfold decode
  cases hop : decodeOpcode w with
  | add | and =>
    cases hmode : bitAt w 5 with
    | false => rfl
    | true => exact fitsImm5_simm w
  | jsr =>
    cases hmode : bitAt w 11 with
    | false => rfl
    | true => exact fitsOffset11_simm w
  | br | ld | ldi | lea | st | sti => exact fitsOffset9_simm w
  | ldr | str => exact fitsOffset6_simm w
  | not | jmp | trap => rfl
  | rti | res => exact beq_iff_eq.2 ((decodeOpcode_eq_iff w _).1 hop)

/-- Settles O1: the decoder evaluated on the nineteen words. -/
theorem sampleWordsDecode : Obligations.SampleWordsDecode := by
  unfold Obligations.SampleWordsDecode
  decide

end Sys2Proof
end

section
/-! The rows of the opcode table (spec/30_encoding.md R77, R79): the plain numbers of a row ask for the bits that decide
the instruction's form, and its strict numbers for the fixed bits beside them. -/

namespace Sys2Proof

/-! ### Equality under a mask -/

/-- The mask of the field `w[lo+n-1 : lo]`. -/
def fieldMask (lo n : Nat) : Word := (BitVec.allOnes n).setWidth 16 <<< lo

theorem getLsbD_fieldMask {lo n i : Nat} (hi : i < 16) :
    (fieldMask lo n).getLsbD i = true ↔ lo ≤ i ∧ i - lo < n := by
  rw [fieldMask, BitVec.getLsbD_shiftLeft, BitVec.getLsbD_setWidth, BitVec.getLsbD_allOnes]
  simp [hi]
  omega

theorem masked_eq_iff (w p m : Word) :
    w &&& m = p &&& m ↔ ∀ i < 16, m.getLsbD i = true → w.getLsbD i = p.getLsbD i := by
  constructor
  · intro h i _ hm
    have hbit := congrArg (·.getLsbD i) h
    simpa only [BitVec.getLsbD_and, hm, Bool.and_true] using hbit
  · intro h
    apply BitVec.eq_of_getLsbD_eq
    intro i hi
    rw [BitVec.getLsbD_and, BitVec.getLsbD_and]
    cases hm : m.getLsbD i with
    | false => rw [Bool.and_false, Bool.and_false]
    | true => rw [h i hi hm]

theorem masked_or_eq_iff (w p m m' : Word) :
    w &&& (m ||| m') = p &&& (m ||| m') ↔ w &&& m = p &&& m ∧ w &&& m' = p &&& m' := by
  simp only [masked_eq_iff, BitVec.getLsbD_or, Bool.or_eq_true, or_imp, forall_and]

theorem getLsbD_field (w : Word) {lo n i : Nat} (hi : i < n) : (field w lo n).getLsbD i = w.getLsbD (lo + i) := by
  rw [field, BitVec.getLsbD_extractLsb', decide_eq_true hi, Bool.true_and]

theorem masked_field_eq_iff (w p : Word) {lo n : Nat} (h : lo + n ≤ 16) :
    w &&& fieldMask lo n = p &&& fieldMask lo n ↔ field w lo n = field p lo n := by
  rw [masked_eq_iff]
  constructor
  · intro hbits
    apply BitVec.eq_of_getLsbD_eq
    intro i hi
    have hi16 : lo + i < 16 := by omega
    have hmask : (fieldMask lo n).getLsbD (lo + i) = true := (getLsbD_fieldMask hi16).2 (by omega)
    rw [getLsbD_field w hi, getLsbD_field p hi, hbits _ hi16 hmask]
  · intro hfield i hi hm
    obtain ⟨hlo, hn⟩ := (getLsbD_fieldMask hi).1 hm
    have hbit := congrArg (·.getLsbD (i - lo)) hfield
    simpa only [getLsbD_field _ hn, Nat.add_sub_cancel' hlo] using hbit

/-! ### The row of a word -/

/-- The bits that decide an instruction's form (R76): the opcode, JSR's bit 11, and the mode bit 5. -/
def formBits (w : Word) : Word := w &&& 0xF820

theorem formBits_eq (w : Word) : formBits w = field w 12 4 ++ field w 11 1 ++ 0#5 ++ field w 5 1 ++ 0#5 := by
  have hw : w = field w 12 4 ++ field w 11 1 ++ field w 6 5 ++ field w 5 1 ++ field w 0 5 := by
    apply BitVec.eq_of_toNat_eq
    simp only [toNat_append_add, field_toNat]
    have := w.isLt
    omega
  have hand : (field w 12 4 ++ field w 11 1 ++ field w 6 5 ++ field w 5 1 ++ field w 0 5) &&&
      (BitVec.allOnes 4 ++ BitVec.allOnes 1 ++ 0#5 ++ BitVec.allOnes 1 ++ 0#5) =
        field w 12 4 ++ field w 11 1 ++ 0#5 ++ field w 5 1 ++ 0#5 := by
    simp only [append_and, BitVec.and_allOnes, BitVec.and_zero]
  rw [formBits]
  conv_lhs => rw [hw]
  exact hand

theorem covers_formBits {r : OpcodeRow} (hr : r ∈ opcodeTable) (w : Word) : r.covers (formBits w) = r.covers w := by
  have hmask : ∀ r ∈ opcodeTable, 0xF820 &&& r.mask = r.mask := by decide
  rw [OpcodeRow.covers, formBits, BitVec.and_assoc, hmask r hr, OpcodeRow.covers]

/-- The operands are discarded by `simp`, not compared by `rfl`, which would evaluate the fields of both words. -/
theorem opcodeRow_decode_formBits (w : Word) : opcodeRow (decode (formBits w)) = opcodeRow (decode w) := by
  have hfield : field (formBits w) 12 4 = field w 12 4 := (field_of_masked rfl 12 4 (by decide)).symm
  have hop : decodeOpcode (formBits w) = decodeOpcode w := by
    rw [decodeOpcode_eq_iff, hfield, ← decodeOpcode_eq_iff]
  have hmode5 : bitAt (formBits w) 5 = bitAt w 5 := (bitAt_of_masked rfl 5 (by decide)).symm
  have hmode11 : bitAt (formBits w) 11 = bitAt w 11 := (bitAt_of_masked rfl 11 (by decide)).symm
  unfold decode
  rw [hop, hmode5, hmode11]
  cases decodeOpcode w with
  | add | and | jsr => dsimp only; split <;> simp only [opcodeRow]
  | _ => simp only [opcodeRow]

/-- On the 64 values of the bits that decide the form. -/
theorem filter_covers_of_formBits (op : BitVec 4) (b11 b5 : BitVec 1) :
    (opcodeTable.filter fun r => r.covers (op ++ b11 ++ 0#5 ++ b5 ++ 0#5)) =
      [opcodeRow (decode (op ++ b11 ++ 0#5 ++ b5 ++ 0#5))] := by
  revert op b11 b5
  decide

theorem filter_covers (w : Word) : (opcodeTable.filter fun r => r.covers w) = [opcodeRow (decode w)] := by
  rw [← opcodeRow_decode_formBits, formBits_eq, ← filter_covers_of_formBits, ← formBits_eq]
  exact List.filter_congr fun r hr => (covers_formBits hr w).symm

theorem covers_opcodeRow_decode (w : Word) : (opcodeRow (decode w)).covers w = true := by
  have hmem : opcodeRow (decode w) ∈ opcodeTable.filter fun r => r.covers w := by simp [filter_covers]
  exact (List.mem_filter.1 hmem).2

end Sys2Proof

namespace Sys2Proof.Machine

/-! ### The strict numbers -/

theorem strictMask_opcodeRow (i : Instr) : (opcodeRow i).strictMask = (opcodeRow i).mask ||| unnamedBits i := by
  cases i <;> dsimp only [opcodeRow, unnamedBits] <;> decide

/-- Under the strict mask a row asks for its own bits and for the fixed values of those no field names. -/
theorem coversStrictly_iff {i : Instr} {w : Word} (hcov : (opcodeRow i).covers w = true) :
    (opcodeRow i).coversStrictly w = true ↔
      w &&& unnamedBits i = (opcodeRow i).strictPattern &&& unnamedBits i := by
  have hstrict : (opcodeRow i).strictPattern &&& (opcodeRow i).strictMask = (opcodeRow i).strictPattern := by
    cases i <;> dsimp only [opcodeRow] <;> decide
  have hplain : (opcodeRow i).strictPattern &&& (opcodeRow i).mask = (opcodeRow i).pattern := by
    cases i <;> dsimp only [opcodeRow] <;> decide
  rw [OpcodeRow.covers, beq_iff_eq, ← hplain] at hcov
  calc (opcodeRow i).coversStrictly w = true
      ↔ w &&& (opcodeRow i).strictMask = (opcodeRow i).strictPattern &&& (opcodeRow i).strictMask := by
        rw [OpcodeRow.coversStrictly, beq_iff_eq, hstrict]
    _ ↔ w &&& unnamedBits i = (opcodeRow i).strictPattern &&& unnamedBits i := by
        rw [strictMask_opcodeRow, masked_or_eq_iff, and_iff_right hcov]

/-- The bits no field names are one field or two, and `fixedBitsDiffer` compares those. -/
theorem unnamedBits_eq_iff (w : Word) :
    w &&& unnamedBits (decode w) = (opcodeRow (decode w)).strictPattern &&& unnamedBits (decode w) ↔
      fixedBitsDiffer w = false := by
  have hregister : (0x0018 : Word) = fieldMask 3 2 := by decide
  have hnot : (0x003F : Word) = fieldMask 0 6 := by decide
  have hjmp : (0x0E3F : Word) = fieldMask 9 3 ||| fieldMask 0 6 := by decide
  have hjsrr : (0x063F : Word) = fieldMask 9 2 ||| fieldMask 0 6 := by decide
  have htrap : (0x0F00 : Word) = fieldMask 8 4 := by decide
  unfold fixedBitsDiffer
  cases decode w with
  | addR | andR | notR | trap =>
    simp only [unnamedBits, opcodeRow, hregister, hnot, htrap]
    rw [masked_field_eq_iff _ _ (by decide), bne_eq_false_iff_eq]
    rfl
  | jmp | jsrr =>
    simp only [unnamedBits, opcodeRow, hjmp, hjsrr]
    rw [masked_or_eq_iff, masked_field_eq_iff _ _ (by decide), masked_field_eq_iff _ _ (by decide),
      Bool.or_eq_false_iff, bne_eq_false_iff_eq, bne_eq_false_iff_eq]
    rfl
  | addI | andI | br | jsr | ld | ldi | ldr | lea | st | sti | str | rti | res => simp [unnamedBits]

/-- Settles O7: the rows by the bits that decide the form, and the strict numbers by the bits no field names. -/
theorem oneTableRowPerWord : Obligations.OneTableRowPerWord := by
  refine fun w => ⟨filter_covers w, ?_⟩
  rw [coversStrictly_iff (covers_opcodeRow_decode w), unnamedBits_eq_iff, ← fixedBitsDiffer_iff, Bool.not_eq_true]

end Sys2Proof.Machine
end

section
/-! What a handler can end in, said once: its result written, a jump, a store, a reserved tag, or a trap's service. The
rules about every instruction (spec/10_state.md R21, R23, spec/20_memory.md R41, spec/40_dispatch.md R91) are read off
these ends. -/

namespace Sys2Proof.Machine

/-! ### Channels that only extend -/

/-- Output is only added at the end, inputs are only taken from the front, and the parameters stay. -/
structure Extends (s t : State) : Prop where
  output : s.output <+: t.output
  consoleIn : t.consoleIn <:+ s.consoleIn
  deviceIn : t.deviceIn <:+ s.deviceIn
  drawCount : s.drawCount ≤ t.drawCount
  params : t.params = s.params

theorem Extends.refl (s : State) : Extends s s := ⟨List.prefix_rfl, List.suffix_rfl, List.suffix_rfl, le_rfl, rfl⟩

theorem Extends.trans {s t u : State} (hst : Extends s t) (htu : Extends t u) : Extends s u where
  output := hst.output.trans htu.output
  consoleIn := htu.consoleIn.trans hst.consoleIn
  deviceIn := htu.deviceIn.trans hst.deviceIn
  drawCount := hst.drawCount.trans htu.drawCount
  params := htu.params.trans hst.params

theorem ReadGives.extends {s s1 : State} {a v : Word} (h : ReadGives s a v s1) : Extends s s1 := by
  obtain ⟨-, -, rfl⟩ | ⟨-, rest, hin, rfl⟩ | ⟨-, -, -, rfl⟩ := h
  · exact .refl _
  · exact { Extends.refl s with deviceIn := hin ▸ List.suffix_cons v rest }
  · exact { Extends.refl s with drawCount := Nat.le_succ _ }

theorem WordsRead.extends {s s1 : State} {a : Word} {ws : List Word} (h : WordsRead s a ws s1) : Extends s s1 := by
  induction h with
  | nil s => exact .refl s
  | cons hread _ _ ih => exact hread.extends.trans ih

/-- A read leaves the state with its draws. -/
theorem State.memRead_eq_withDraws (s : State) (a : Word) : (s.memRead a).2 = s.withDraws (s.memRead a).2 := by
  obtain ⟨-, -, h⟩ | ⟨-, rest, -, h⟩ | ⟨-, -, -, h⟩ := s.memRead_gives a <;> rw [h] <;> rfl

theorem State.memWrite_withDraws (s d : State) (a v : Word) :
    (s.withDraws d).memWrite a v = (s.memWrite a v).withDraws d := by
  cases hdev : s.params.inDevice a with
  | true => rw [State.memWrite_device hdev, State.memWrite_device (s := s.withDraws d) hdev]; rfl
  | false => rw [State.memWrite_plain hdev, State.memWrite_plain (s := s.withDraws d) hdev]; rfl

theorem State.memWrite_extends (s : State) (a v : Word) : Extends s (s.memWrite a v) := by
  cases hdev : s.params.inDevice a with
  | true => rw [State.memWrite_device hdev]; exact { Extends.refl s with output := List.prefix_append .. }
  | false => rw [State.memWrite_plain hdev]; exact { Extends.refl s with }

/-! ### The ends of a trap's service -/

/-- The vector of an input service (R182). -/
def InputService.vector : InputService → Byte
  | .getc => 0x20
  | .input => 0x23

/-- What an instruction run from `s` is when it gives the outcome (R91, R210). -/
def OutcomeCause (i : Instr) (s : State) : CoreOutcome → Prop
  | .completed => i ≠ .trap 0x25
  | .halt => i = .trap 0x25
  | .reserved op => i.opcode = reservedTag op
  | .unknownTrap v => i = .trap v ∧ (v.toNat < 0x20 ∨ 0x25 < v.toNat)
  | .fault reason => reason = .unterminatedString ∧ (i = .trap 0x22 ∨ i = .trap 0x24) ∧
      ∃ ws s', WordsRead s (s.reg 0) ws s' ∧ ws.length = 65536

/-- Every service starts with the link write: it then waits for a character, or has read one, or ends with its bytes
output and its words read (R181, R191). -/
inductive ServiceEnd (s : State) (v : Byte) : State → Prop where
  | held (svc : InputService) (bytes : List Byte) : v = svc.vector → s.consoleIn = [] →
      ServiceEnd s v ((s.saveLink.emit bytes).hold svc)
  | read (svc : InputService) (bytes : List Byte) {c : Byte} {rest : List Byte} : v = svc.vector →
      s.consoleIn = c :: rest → ServiceEnd s v (((s.saveLink.emit bytes).setConsoleIn rest).finishInput svc c)
  | done (d : State) (bytes : List Byte) {o : CoreOutcome} : Extends s d → OutcomeCause (.trap v) s o →
      ServiceEnd s v (((s.saveLink.emit bytes).withDraws d).finish o)

theorem ServiceEnd.awaitInput (s : State) (svc : InputService) (bytes : List Byte) :
    ServiceEnd s svc.vector ((s.saveLink.emit bytes).awaitInput svc) := by
  have hchars : (s.saveLink.emit bytes).consoleIn = s.consoleIn := s.saveLink_consoleIn
  cases hin : s.consoleIn with
  | nil =>
    rw [State.awaitInput_nil (hchars.trans hin)]
    exact .held svc bytes rfl hin
  | cons c rest =>
    rw [State.awaitInput_cons (hchars.trans hin)]
    exact .read svc bytes rfl hin

/-- A service that reads no word. -/
theorem ServiceEnd.emitted {s : State} {v : Byte} (bytes : List Byte) {o : CoreOutcome}
    (ho : OutcomeCause (.trap v) s o) : ServiceEnd s v ((s.saveLink.emit bytes).finish o) := by
  have hdraws : s.saveLink.emit bytes = (s.saveLink.emit bytes).withDraws s := by
    rw [State.withDraws, ← s.saveLink_deviceIn, ← s.saveLink_drawCount]
    rfl
  rw [hdraws]
  exact .done s bytes (.refl s) ho

/-- The string services, by the run of words from R0. -/
theorem ServiceEnd.stringTrap (bytes : Word → List Byte) (s : State) {v : Byte} (hv : v = 0x22 ∨ v = 0x24) :
    ServiceEnd s v (s.stringTrap bytes) := by
  have hne : Instr.trap v ≠ .trap 0x25 := by rcases hv with rfl | rfl <;> decide
  obtain ⟨ws, s1, hws, ⟨hlen, s2, hzero⟩ | hlen⟩ := exists_wordsRead 65536 s (s.reg 0)
  · rw [State.stringTrap_terminated bytes hws hzero hlen]
    exact .done s2 _ (hws.extends.trans hzero.extends) hne
  · rw [State.stringTrap_unterminated bytes hws hlen]
    exact .done s1 _ hws.extends ⟨rfl, hv.imp (congrArg Instr.trap) (congrArg Instr.trap), ws, s1, hws, hlen⟩

theorem State.emit_nil (s : State) : s.emit [] = s := by
  rw [State.emit, List.map_nil, List.append_nil]

theorem eq_vector_or_unknown (v : Byte) : v ∈ ([0x20, 0x21, 0x22, 0x23, 0x24, 0x25] : List Byte) ∨
    v.toNat < 0x20 ∨ 0x25 < v.toNat := by
  revert v
  decide

theorem exec_trap_end (v : Byte) (s : State) : ∃ t, exec (.trap v) s = .next t ∧ ServiceEnd s v t := by
  obtain hknown | hunknown := eq_vector_or_unknown v
  · simp only [List.mem_cons, List.not_mem_nil, or_false] at hknown
    obtain rfl | rfl | rfl | rfl | rfl | rfl := hknown
    · rw [exec_trap_getc, ← s.saveLink.emit_nil]
      exact ⟨_, rfl, .awaitInput s .getc []⟩
    · exact ⟨_, exec_trap_out s, .emitted _ nofun⟩
    · exact ⟨_, exec_trap_puts s, .stringTrap putsBytes s (.inl rfl)⟩
    · exact ⟨_, exec_trap_in s, .awaitInput s .input _⟩
    · exact ⟨_, exec_trap_putsp s, .stringTrap putspBytes s (.inr rfl)⟩
    · exact ⟨_, exec_trap_halt s, .emitted _ rfl⟩
  · have hcause : OutcomeCause (.trap v) s (.unknownTrap v) := ⟨rfl, hunknown⟩
    rw [exec_trap_unknown hunknown, ← s.saveLink.emit_nil]
    exact ⟨_, rfl, .emitted [] hcause⟩

/-! ### The ends of a handler -/

/-- The state every handler ends in (R90), by the kind of its instruction; `d` is a state that has answered the reads
made on the way. -/
inductive HandlerEnd (s : State) : Instr → State → Prop where
  | result {i : Instr} {dr : Reg} (d : State) (v : Word) : flagDest i = some dr → Extends s d →
      HandlerEnd s i (((s.withDraws d).writeResult dr v).finish .completed)
  | jumped {i : Instr} (target : Word) : i.opcode ∈ [.br, .jmp] →
      HandlerEnd s i ((s.setPc target).finish .completed)
  | linked {i : Instr} (target : Word) : i.opcode = .jsr → HandlerEnd s i (s.linkTo target)
  | stored {i : Instr} (d : State) (a v : Word) : i.opcode ∈ [.st, .sti, .str] → Extends s d →
      HandlerEnd s i (((s.memWrite a v).withDraws d).finish .completed)
  | reserved {i : Instr} (op : ReservedOp) : i.opcode = reservedTag op → HandlerEnd s i (s.finish (.reserved op))
  | service {v : Byte} {t : State} : ServiceEnd s v t → HandlerEnd s (.trap v) t

theorem HandlerEnd.loadFrom {s d : State} {i : Instr} {dr : Reg} (hdest : flagDest i = some dr) (hd : Extends s d)
    (heq : d = s.withDraws d) (ea : Word) : HandlerEnd s i (d.loadFrom dr ea) := by
  have hdraws : (d.memRead ea).2 = s.withDraws (d.memRead ea).2 :=
    (d.memRead_eq_withDraws ea).trans (congrArg (·.withDraws (d.memRead ea).2) heq)
  rw [State.loadFrom, hdraws]
  exact .result _ _ hdest (hd.trans (d.memRead_gives ea).extends)

theorem HandlerEnd.storeTo {s d : State} {i : Instr} (hop : i.opcode ∈ [.st, .sti, .str]) (hd : Extends s d)
    (heq : d = s.withDraws d) (a v : Word) : HandlerEnd s i (d.storeTo a v) := by
  have hdraws : d.memWrite a v = (s.memWrite a v).withDraws d :=
    (congrArg (·.memWrite a v) heq).trans (s.memWrite_withDraws d a v)
  rw [State.storeTo, hdraws]
  exact .stored d a v hop hd

theorem exec_end (i : Instr) (s : State) : ∃ t, exec i s = .next t ∧ HandlerEnd s i t := by
  cases i with
  | addR | addI | andR | andI | notR | lea => exact ⟨_, rfl, .result s _ rfl (.refl s)⟩
  | ld | ldr => exact ⟨_, rfl, .loadFrom rfl (.refl s) rfl _⟩
  | ldi dr off =>
    exact ⟨_, exec_ldi dr off s, .loadFrom rfl (s.memRead_gives _).extends (s.memRead_eq_withDraws _) _⟩
  | br n z p off => exact ⟨_, exec_br n z p off s, .jumped _ (by simp [Instr.opcode])⟩
  | jmp base => exact ⟨_, exec_jmp base s, .jumped _ (by simp [Instr.opcode])⟩
  | jsr off => exact ⟨_, exec_jsr off s, .linked _ rfl⟩
  | jsrr base => exact ⟨_, exec_jsrr base s, .linked _ rfl⟩
  | st | str => exact ⟨_, rfl, .storeTo (by simp [Instr.opcode]) (.refl s) rfl _ _⟩
  | sti sr off =>
    exact ⟨_, exec_sti sr off s, .storeTo (by simp [Instr.opcode]) (s.memRead_gives _).extends
      (s.memRead_eq_withDraws _) _ _⟩
  | rti => exact ⟨_, rfl, .reserved .rti rfl⟩
  | res => exact ⟨_, rfl, .reserved .res rfl⟩
  | trap v =>
    obtain ⟨t, hexec, hend⟩ := exec_trap_end v s
    exact ⟨t, hexec, .service hend⟩

/-! ### What an end gives: the channels, the memory, the registers and the PC -/

theorem ServiceEnd.extends {s t : State} {v : Byte} (h : ServiceEnd s v t) : Extends s t := by
  cases h with
  | held svc bytes _ _ =>
    exact ⟨by simp, by simp, by simp, by simp, by simp⟩
  | read svc bytes _ hin =>
    exact ⟨by simp [State.finishInput_output], by simp [hin], by simp, by simp, by simp⟩
  | done d bytes hd _ =>
    exact ⟨by simp [State.withDraws], by simp [State.withDraws], hd.deviceIn, hd.drawCount, s.saveLink_params⟩

theorem HandlerEnd.extends {i : Instr} {s t : State} (h : HandlerEnd s i t) : Extends s t := by
  cases h with
  | result d v _ hd => exact { Extends.refl s with deviceIn := hd.deviceIn, drawCount := hd.drawCount }
  | jumped | linked | reserved => exact { Extends.refl s with }
  | stored d a v _ hd =>
    have hw := s.memWrite_extends a v
    exact ⟨hw.output, hw.consoleIn, hd.deviceIn, hd.drawCount, hw.params⟩
  | service hend => exact hend.extends

/-- Memory and output: only a store writes a cell or a device, and the rest output console bytes alone (R41). -/
theorem HandlerEnd.memory {i : Instr} {s t : State} (h : HandlerEnd s i t) :
    (t.mem = s.mem ∧ ∃ bytes : List Byte, t.output = s.output ++ bytes.map .console) ∨
      (i.opcode ∈ [.st, .sti, .str] ∧ ∃ a v, t.mem = (s.memWrite a v).mem) := by
  cases h with
  | result | jumped | linked | reserved => exact .inl ⟨rfl, [], (List.append_nil _).symm⟩
  | stored d a v hst _ => exact .inr ⟨hst, a, v, rfl⟩
  | service hend =>
    cases hend with
    | held _ bytes => exact .inl ⟨by simp, bytes, by simp⟩
    | @read svc bytes c =>
      exact .inl ⟨by simp, bytes ++ echoBytes s.params c svc, by simp [State.finishInput_output]⟩
    | done _ bytes => exact .inl ⟨s.saveLink_mem, bytes, by simp [State.withDraws]⟩

theorem regWrites_of_flagDest {i : Instr} {dr : Reg} (h : flagDest i = some dr) : regWrites i = [dr] := by
  cases i <;> cases h <;> rfl

theorem regWrites_of_jsr {i : Instr} (h : i.opcode = .jsr) : regWrites i = [7] := by
  cases i with
  | jsr | jsrr => rfl
  | _ => cases h

/-- Held, ended with a character or ended without one, a service is done but for the fetch loop's state, and an input
service alone changes a register beside the link. -/
theorem ServiceEnd.serviceDone {s t : State} {v : Byte} (h : ServiceEnd s v t) :
    ∃ changed bytes, ServiceDone changed bytes { s with run := t.run } t ∧
      ∀ r ∈ changed, r = 0 ∧ (v = 0x20 ∨ v = 0x23) := by
  cases h with
  | held svc bytes => exact ⟨[], _, (s.saveLink_done.emit bytes).hold svc, nofun⟩
  | @read svc bytes c rest hv =>
    have hdone := ((s.saveLink_done.emit bytes).setConsoleIn rest).finishInput svc c
    have hvector : v = 0x20 ∨ v = 0x23 := by cases svc <;> simp [hv, InputService.vector]
    exact ⟨[0], _, { hdone with run := rfl }, fun r hr => ⟨List.mem_singleton.1 hr, hvector⟩⟩
  | @done d bytes o =>
    have hdone := ((s.saveLink_done.emit bytes).withDraws d).finish o
    exact ⟨[], _, { hdone with run := rfl }, nofun⟩

theorem mem_regWrites_trap {r : Reg} {v : Byte} :
    r ∈ regWrites (.trap v) ↔ r = 7 ∨ r = 0 ∧ (v = 0x20 ∨ v = 0x23) := by
  by_cases hv : v = 0x20 ∨ v = 0x23
  · rw [regWrites, if_pos hv, List.mem_pair, and_iff_left hv]
  · rw [regWrites, if_neg hv, List.mem_singleton, or_iff_left fun h => hv h.2]

theorem ServiceEnd.regs {s t : State} {v : Byte} (h : ServiceEnd s v t) :
    SameRegsExcept (regWrites (.trap v)) s t := by
  obtain ⟨changed, bytes, hdone, hchanged⟩ := h.serviceDone
  intro r hr
  rw [mem_regWrites_trap, not_or] at hr
  refine hdone.regs r fun hmem => ?_
  exact (List.mem_cons.1 hmem).elim hr.1 fun hr0 => hr.2 (hchanged r hr0)

theorem HandlerEnd.regs {i : Instr} {s t : State} (h : HandlerEnd s i t) : SameRegsExcept (regWrites i) s t := by
  intro r hr
  cases h with
  | result d v hdest _ =>
    rw [regWrites_of_flagDest hdest] at hr
    exact State.reg_setReg_other _ v (List.ne_of_not_mem_cons hr)
  | jumped | reserved => rfl
  | linked target hop =>
    rw [regWrites_of_jsr hop] at hr
    exact State.reg_setReg_other s _ (List.ne_of_not_mem_cons hr)
  | stored d a v => exact s.memWrite_reg a v r
  | service hend => exact hend.regs r hr

/-- Only BR, JMP, JSR and JSRR change the PC (R23). -/
theorem HandlerEnd.pc {i : Instr} {s t : State} (h : HandlerEnd s i t) (hop : i.opcode ∉ [.br, .jmp, .jsr]) :
    t.pc = s.pc := by
  cases h with
  | result | reserved => rfl
  | jumped _ hjump => exact absurd (List.mem_append_left [OpCode.jsr] hjump) hop
  | linked _ hjsr => exact absurd (by simp [hjsr]) hop
  | stored d a v => exact s.memWrite_pc a v
  | service hend =>
    obtain ⟨_, _, hdone, -⟩ := hend.serviceDone
    exact hdone.pc

/-- Every handler gives one outcome and leaves the fetch loop as it is, or holds on input after the link write (R91,
R191). -/
theorem HandlerEnd.outcome {i : Instr} {s t : State} (h : HandlerEnd s i t) :
    (∃ o, t.outcome = some o ∧ OutcomeCause i s o ∧ t.run = s.run) ∨
      ∃ svc bytes, i = .trap svc.vector ∧ s.consoleIn = [] ∧ t = (s.saveLink.emit bytes).hold svc := by
  cases h with
  | result d v hdest => exact .inl ⟨_, rfl, fun hi => by simp [hi, flagDest] at hdest, rfl⟩
  | jumped _ hop => exact .inl ⟨_, rfl, fun hi => by simp [hi, Instr.opcode] at hop, rfl⟩
  | linked _ hop => exact .inl ⟨_, rfl, fun hi => by simp [hi, Instr.opcode] at hop, rfl⟩
  | stored d a v hop => exact .inl ⟨_, rfl, fun hi => by simp [hi, Instr.opcode] at hop, s.memWrite_run a v⟩
  | reserved op hop => exact .inl ⟨_, rfl, hop, rfl⟩
  | service hend =>
    cases hend with
    | held svc bytes hv hin => exact .inr ⟨svc, bytes, congrArg Instr.trap hv, hin, rfl⟩
    | read svc bytes hv =>
      exact .inl ⟨_, rfl, by subst hv; cases svc <;> nofun, by simp⟩
    | done d bytes hd ho => exact .inl ⟨_, rfl, ho, s.saveLink_run⟩

/-! ### The rules about every instruction -/

theorem rejectedStrictly_of_trap {w : Word} (hop : field w 12 4 = OpCode.trap.bits) (hfixed : field w 8 4 ≠ 0) :
    RejectedStrictly w :=
  rejectedStrictly_of_mismatch (.inr (.inr (.inr (.inr ⟨hop, hfixed⟩))))

/-- Settles O31: the decoder by the opcode under its mask, and the rest from what a service has done when it ends or
waits. -/
theorem trapEntry : Obligations.TrapEntry := by
  refine ⟨fun w hw => ?_, fun v s => ?_⟩
  · have hop : field w 12 4 = OpCode.trap.bits := field_of_masked hw 12 4 (by decide)
    exact ⟨decode_of_trap hop, rejectedStrictly_of_trap hop⟩
  · obtain ⟨t, hexec, hend⟩ := exec_trap_end v s
    obtain ⟨changed, bytes, hdone, hchanged⟩ := hend.serviceDone
    refine ⟨t, hexec, hdone.pc, hdone.cond, hdone.cells, hdone.params, fun r hr => hend.regs r ?_, hdone.link⟩
    rw [mem_regWrites_trap]
    rintro (rfl | ⟨rfl, -⟩)
    · exact hr (by decide)
    · exact hr (by decide)

/-- Settles O51: read off the ends of the handlers. -/
theorem onlyListedRegistersChange : Obligations.OnlyListedRegistersChange := by
  intro i s
  obtain ⟨t, hexec, hend⟩ := exec_end i s
  exact ⟨t, hexec, hend.regs, hend.pc⟩

/-- Settles O52: an end that is no store leaves the memory itself. -/
theorem onlyStoresWriteMemory : Obligations.OnlyStoresWriteMemory := by
  intro i s hop
  obtain ⟨t, hexec, hend⟩ := exec_end i s
  obtain ⟨hmem, bytes, hout⟩ | ⟨hstore, -⟩ := hend.memory
  · exact ⟨t, bytes, hexec, fun a => congrArg (·.read a) hmem, hout⟩
  · exact absurd hstore hop

/-- Settles O54: read off the ends of the handlers; the input services are the two vectors named. -/
theorem execAnswersOneOutcome : Obligations.ExecAnswersOneOutcome := by
  intro i s
  obtain ⟨t, hexec, hend⟩ := exec_end i s
  refine ⟨t, hexec, ?_⟩
  obtain ⟨o, ho, -, hrun⟩ | ⟨svc, bytes, hi, hin, rfl⟩ := hend.outcome
  · exact .inl ⟨⟨o, ho⟩, hrun⟩
  · cases svc with
    | getc => exact .inr ⟨rfl, hin, .inl ⟨hi, rfl⟩⟩
    | input => exact .inr ⟨rfl, hin, .inr ⟨hi, rfl⟩⟩

end Sys2Proof.Machine
end

section
/-! The steps of the fetch loop (spec/40_dispatch.md R92, R93) and what every step keeps: the invariant, the channels,
and the causes of a stop (spec/60_exceptions.md R210). -/

namespace Sys2Proof.Machine

/-! ### One step of a running machine -/

theorem ReadGives.run {s s1 : State} {a v : Word} (h : ReadGives s a v s1) : s1.run = s.run := by
  obtain ⟨-, -, rfl⟩ | ⟨-, -, -, rfl⟩ | ⟨-, -, -, rfl⟩ := h <;> rfl

theorem ReadGives.reg {s s1 : State} {a v : Word} (h : ReadGives s a v s1) (q : Reg) : s1.reg q = s.reg q := by
  obtain ⟨-, -, rfl⟩ | ⟨-, -, -, rfl⟩ | ⟨-, -, -, rfl⟩ := h <;> rfl

theorem decodeChecked_eq_ok_iff {strict : Bool} {w : Word} {i : Instr} :
    decodeChecked strict w = .ok i ↔ ¬ (strict = true ∧ StrictMismatch w) ∧ i = decode w := by
  rw [← fixedBitsDiffer_iff, ← Bool.and_eq_true, decodeChecked]
  split
  · simp [*]
  · simp [*, eq_comm]

theorem execute_of_checked {s : State} {w : Word} {i : Instr}
    (h : decodeChecked s.params.strictFixedBits w = .ok i) : execute w s = exec i s := by
  rw [execute, h]

theorem execute_of_rejected {s : State} {w : Word} (hstrict : s.params.strictFixedBits = true)
    (hmismatch : StrictMismatch w) : execute w s = .next (s.raise (.illegalEncoding w)) :=
  rejectedStrictly_of_mismatch hmismatch s hstrict

/-- The word fetched is rejected under strict mode, or its instruction is run to its end; the fetch loop then
reacts. -/
inductive StepEnd (s : State) (w : Word) : State → Prop where
  | rejected : s.params.strictFixedBits = true → StrictMismatch w →
      StepEnd s w (s.raise (.illegalEncoding w)).react
  | ran {u : State} : decodeChecked s.params.strictFixedBits w = .ok (decode w) → HandlerEnd s (decode w) u →
      StepEnd s w u.react

theorem execute_end (s : State) (w : Word) : ∃ u, reactTo (execute w s) = .next u ∧ StepEnd s w u := by
  by_cases hrej : s.params.strictFixedBits = true ∧ StrictMismatch w
  · obtain ⟨hstrict, hmismatch⟩ := hrej
    rw [execute_of_rejected hstrict hmismatch]
    exact ⟨_, rfl, .rejected hstrict hmismatch⟩
  · have hok : decodeChecked s.params.strictFixedBits w = .ok (decode w) := decodeChecked_eq_ok_iff.2 ⟨hrej, rfl⟩
    obtain ⟨t, hexec, hend⟩ := exec_end (decode w) s
    rw [execute_of_checked hok, hexec]
    exact ⟨_, rfl, .ran hok hend⟩

theorem step_running_end {s s1 t : State} {w : Word} (hrun : s.run = .running) (hread : ReadGives s s.pc w s1)
    (hstep : step s = .next t) : StepEnd (s1.setPc (s.pc + 1)) w t := by
  rw [step_running hrun, State.fetch_of_gives hread] at hstep
  obtain ⟨u, hu, hend⟩ := execute_end (s1.setPc (s.pc + 1)) w
  rw [hu] at hstep
  cases hstep
  exact hend

/-- Settles O41: a word the decoder accepts is executed as its instruction. -/
theorem stepRunsDecodedInstruction : Obligations.StepRunsDecodedInstruction := by
  intro s s1 w i hrun hread hok
  refine ⟨(decodeChecked_eq_ok_iff.1 hok).2, fun t hexec => ?_⟩
  have hok1 : decodeChecked (s1.setPc (s.pc + 1)).params.strictFixedBits w = .ok i := by
    rw [State.setPc_params, hread.same.1, hok]
  rw [step_running hrun, State.fetch_of_gives hread, execute_of_checked hok1]
  exact congrArg reactTo hexec

/-! ### The channels along a run -/

theorem State.react_extends (s : State) : Extends s s.react :=
  ⟨by simp, by simp, by simp, by simp, by simp⟩

theorem StepEnd.extends {s t : State} {w : Word} (h : StepEnd s w t) : Extends s t := by
  cases h with
  | rejected =>
    have hraise : Extends s (s.raise (.illegalEncoding w)) := { Extends.refl s with }
    exact hraise.trans (State.react_extends _)
  | ran _ hend => exact hend.extends.trans (State.react_extends _)

theorem State.resume_extends (s : State) (svc : InputService) : Extends s (s.resume svc) := by
  cases hin : s.consoleIn with
  | nil =>
    rw [State.resume_nil hin]
    exact .refl s
  | cons c rest =>
    rw [State.resume_cons hin]
    exact ⟨by simp [State.finishInput_output], by simp [hin], by simp, by simp, by simp⟩

theorem step_extends {s t : State} (hstep : step s = .next t) : Extends s t := by
  cases hrun : s.run with
  | running =>
    have hread := s.memRead_gives s.pc
    have hpc : Extends (s.memRead s.pc).2 ((s.memRead s.pc).2.setPc (s.pc + 1)) := { Extends.refl _ with }
    exact (hread.extends.trans hpc).trans (step_running_end hrun hread hstep).extends
  | held svc =>
    rw [step_held hrun] at hstep
    cases hstep
    exact s.resume_extends svc
  | halted =>
    rw [step_halted hrun] at hstep
    cases hstep
    exact .refl s
  | faulted reason =>
    rw [step_faulted hrun] at hstep
    cases hstep

theorem Reaches.extends {s t : State} (h : Reaches s t) : Extends s t := by
  induction h with
  | refl => exact .refl s
  | tail _ hstep ih => exact ih.trans (step_extends hstep)

/-- Settles O57, step by step along the run. -/
theorem runsExtendOutput : Obligations.RunsExtendOutput := by
  intro s t hreach
  have h := hreach.extends
  exact ⟨h.output, h.consoleIn, h.deviceIn, h.drawCount, h.params⟩

/-! ### What the fetch loop stops on -/

theorem State.react_run {s : State} {o : CoreOutcome} (ho : s.outcome = some o) :
    s.react.run = (stopStatus s.params o).getD s.run := by
  rw [State.react_of_some ho]
  cases stopStatus s.params o <;> rfl

/-- The fetch loop goes on, or stops halted after `Halt`, or stops on a fault. -/
theorem stopStatus_cases (p : Params) (o : CoreOutcome) :
    stopStatus p o = none ∨ (stopStatus p o = some .halted ∧ o = .halt) ∨
      ∃ reason, stopStatus p o = some (.faulted reason) := by
  cases o with
  | completed => exact .inl rfl
  | halt => exact .inr (.inl ⟨rfl, rfl⟩)
  | fault reason => exact .inr (.inr ⟨reason, rfl⟩)
  | reserved op => cases hp : p.reservedPolicy <;> simp [stopStatus, hp]
  | unknownTrap v => cases hp : p.unknownTrapPolicy <;> simp [stopStatus, hp]

/-! ### The invariant -/

theorem State.MemOutsideDevice.congr {s t : State} (h : s.MemOutsideDevice) (hmem : t.mem = s.mem)
    (hparams : t.params = s.params) : t.MemOutsideDevice := by
  intro k v hkv
  rw [hparams]
  exact h k v (hmem ▸ hkv)

/-- The part of the invariant that speaks of memory. -/
structure State.MemInv (s : State) : Prop where
  canonical : s.mem.wf = true
  outside : s.MemOutsideDevice

theorem State.MemInv.congr {s t : State} (h : s.MemInv) (hmem : t.mem = s.mem) (hparams : t.params = s.params) :
    t.MemInv :=
  ⟨by rw [hmem, h.canonical], h.outside.congr hmem hparams⟩

theorem HandlerEnd.memInv {i : Instr} {s t : State} (h : HandlerEnd s i t) (hs : s.MemInv) : t.MemInv := by
  obtain ⟨hmem, -⟩ | ⟨-, a, v, hmem⟩ := h.memory
  · exact hs.congr hmem h.extends.params
  · have hwrite : (s.memWrite a v).MemInv := ⟨s.memWrite_wf hs.canonical a v, s.memWrite_outside hs.outside a v⟩
    exact hwrite.congr hmem (h.extends.params.trans (s.memWrite_params a v).symm)

/-- The part of the invariant that speaks of the fetch loop. -/
structure State.LoopInv (s : State) : Prop where
  outcomeAgrees : s.OutcomeAgrees
  heldTrapSavedLink : s.HeldTrapSavedLink

theorem State.LoopInv.of_running {s : State} (hrun : s.run = .running)
    (hgo : ∀ o, s.outcome = some o → stopStatus s.params o = none) : s.LoopInv where
  outcomeAgrees := by rwa [State.OutcomeAgrees, hrun]
  heldTrapSavedLink svc hheld := by rw [hrun] at hheld; cases hheld

theorem State.LoopInv.of_held {s : State} {svc : InputService} (hrun : s.run = .held svc) (hout : s.outcome = none)
    (hlink : s.params.trapSavesLink = true → s.reg 7 = s.pc) : s.LoopInv where
  outcomeAgrees := by rwa [State.OutcomeAgrees, hrun]
  heldTrapSavedLink _ _ := hlink

theorem State.LoopInv.of_halted {s : State} (hrun : s.run = .halted) (hout : s.outcome = some .halt) : s.LoopInv where
  outcomeAgrees := by rwa [State.OutcomeAgrees, hrun]
  heldTrapSavedLink svc hheld := by rw [hrun] at hheld; cases hheld

theorem State.LoopInv.of_faulted {s : State} {reason : Fault} (hrun : s.run = .faulted reason)
    (hout : ∃ o, s.outcome = some o ∧ stopStatus s.params o = some (.faulted reason)) : s.LoopInv where
  outcomeAgrees := by rwa [State.OutcomeAgrees, hrun]
  heldTrapSavedLink svc hheld := by rw [hrun] at hheld; cases hheld

/-- The reaction to an outcome of a running machine brings outcome and status into agreement (R93). -/
theorem State.react_loopInv {s : State} (hrun : s.run = .running) {o : CoreOutcome} (ho : s.outcome = some o) :
    s.react.LoopInv := by
  obtain hgo | ⟨hstop, rfl⟩ | ⟨reason, hstop⟩ := stopStatus_cases s.params o
  · rw [State.react_of_stopStatus_none ho hgo]
    refine .of_running hrun fun o' ho' => ?_
    obtain rfl : o = o' := Option.some.inj (ho.symm.trans ho')
    exact hgo
  · rw [State.react_of_stopStatus_some ho hstop]
    exact .of_halted rfl ho
  · rw [State.react_of_stopStatus_some ho hstop]
    exact .of_faulted rfl ⟨o, ho, hstop⟩

/-- A held trap has no outcome to react to, and its link was written before the wait. -/
theorem State.hold_loopInv (s : State) (bytes : List Byte) (svc : InputService) :
    ((s.saveLink.emit bytes).hold svc).LoopInv := by
  refine .of_held rfl rfl fun hlink => ?_
  have hsaves : s.params.trapSavesLink = true := by simpa using hlink
  exact State.saveLink_saved hsaves

theorem StepEnd.loopInv {s t : State} {w : Word} (h : StepEnd s w t) (hrun : s.run = .running) : t.LoopInv := by
  cases h with
  | rejected => exact State.react_loopInv hrun rfl
  | ran _ hend =>
    obtain ⟨o, ho, -, hsame⟩ | ⟨svc, bytes, -, -, rfl⟩ := hend.outcome
    · exact State.react_loopInv (hsame.trans hrun) ho
    · rw [State.react_of_none rfl]
      exact s.hold_loopInv bytes svc

theorem StepEnd.memInv {s t : State} {w : Word} (h : StepEnd s w t) (hs : s.MemInv) : t.MemInv := by
  cases h with
  | rejected => exact hs.congr (State.react_mem _) (State.react_params _)
  | ran _ hend => exact (hend.memInv hs).congr (State.react_mem _) (State.react_params _)

theorem State.inv_iff {s : State} : s.Inv ↔ s.MemInv ∧ s.LoopInv :=
  ⟨fun h => ⟨⟨h.memCanonical, h.memOutsideDevice⟩, ⟨h.outcomeAgrees, h.heldTrapSavedLink⟩⟩,
    fun ⟨hmem, hloop⟩ => ⟨hmem.canonical, hmem.outside, hloop.outcomeAgrees, hloop.heldTrapSavedLink⟩⟩

theorem State.Inv.resume {s : State} (h : s.Inv) (svc : InputService) : (s.resume svc).Inv := by
  cases hin : s.consoleIn with
  | nil => rwa [State.resume_nil hin]
  | cons c rest =>
    rw [State.resume_cons hin, State.inv_iff]
    refine ⟨(State.inv_iff.1 h).1.congr (by simp) (by simp), .of_running (by simp) fun o ho => ?_⟩
    obtain rfl := Option.some.inj ho
    rfl

/-- Settles O47: a step of a running machine by how it ends, one of a held machine by whether a character has come. -/
theorem stepKeepsInvariant : Obligations.StepKeepsInvariant := by
  intro s t hinv hstep
  cases hrun : s.run with
  | running =>
    have hread := s.memRead_gives s.pc
    have hend := step_running_end hrun hread hstep
    have hmem := (State.inv_iff.1 hinv).1
    exact State.inv_iff.2 ⟨hend.memInv (hmem.congr (by simp) (by simp)), hend.loopInv (by simpa using hrun)⟩
  | held svc =>
    rw [step_held hrun] at hstep
    cases hstep
    exact hinv.resume svc
  | halted =>
    rw [step_halted hrun] at hstep
    cases hstep
    exact hinv
  | faulted reason =>
    rw [step_faulted hrun] at hstep
    cases hstep

/-- Settles O46: the state after reset is a launch state. -/
theorem resetHoldsInvariant : Obligations.ResetHoldsInvariant := by
  rw [Obligations.ResetHoldsInvariant, State.reset_eq_launch]
  exact State.launch_inv _ _ _ _

/-! ### What a step stops on -/

theorem OutcomeCause.eq_halt_iff {i : Instr} {s : State} {o : CoreOutcome} (h : OutcomeCause i s o) :
    o = .halt ↔ i = .trap 0x25 := by
  constructor
  · rintro rfl
    exact h
  · rintro rfl
    cases o with
    | halt => rfl
    | completed => exact absurd rfl h
    | reserved op => cases op <;> cases h
    | unknownTrap v =>
      obtain ⟨hv, hrange⟩ := h
      cases hv
      simp at hrange
    | fault reason =>
      obtain ⟨-, hv, -⟩ := h
      simp at hv

theorem State.react_run_eq_halted_iff {s : State} (hrun : s.run = .running) {o : CoreOutcome}
    (ho : s.outcome = some o) : s.react.run = .halted ↔ o = .halt := by
  rw [State.react_run ho, hrun]
  obtain hgo | ⟨hstop, rfl⟩ | ⟨reason, hstop⟩ := stopStatus_cases s.params o
  · rw [hgo]
    exact iff_of_false nofun (by rintro rfl; cases hgo)
  · rw [hstop]
    exact iff_of_true rfl rfl
  · rw [hstop]
    exact iff_of_false nofun (by rintro rfl; cases hstop)

theorem StepEnd.halted_iff {s t : State} {w : Word} (h : StepEnd s w t) (hrun : s.run = .running) :
    t.run = .halted ↔ decodeChecked s.params.strictFixedBits w = .ok (.trap 0x25) := by
  cases h with
  | rejected hstrict hmismatch =>
    rw [decodeChecked_eq_ok_iff]
    exact iff_of_false nofun fun hok => hok.1 ⟨hstrict, hmismatch⟩
  | ran hok hend =>
    rw [hok, Except.ok.injEq]
    obtain ⟨o, ho, hcause, hsame⟩ | ⟨svc, bytes, hi, -, rfl⟩ := hend.outcome
    · rw [State.react_run_eq_halted_iff (hsame.trans hrun) ho, hcause.eq_halt_iff]
    · rw [hi]
      exact iff_of_false nofun (by cases svc <;> decide)

theorem State.resume_not_halted {s : State} {svc : InputService} (hrun : s.run = .held svc) :
    (s.resume svc).run ≠ .halted := by
  cases hin : s.consoleIn with
  | nil => rw [State.resume_nil hin, hrun]; nofun
  | cons c rest => rw [State.resume_cons hin]; nofun

/-- Settles O55: a running machine stops halted on the outcome `Halt` alone, which TRAP 0x25 alone gives. -/
theorem onlyHaltTrapHalts : Obligations.OnlyHaltTrapHalts := by
  refine ⟨fun s s1 t w hrun hread hstep => ?_, fun s t svc hheld hstep => ?_⟩
  · have hend := step_running_end hrun hread hstep
    rw [hend.halted_iff (hread.run.trans hrun), State.setPc_params, hread.same.1]
  · rw [step_held hheld] at hstep
    cases hstep
    exact State.resume_not_halted hheld

/-- The causes of R210 for a word run from `s` under the parameters `p`, with the strings at `a`. -/
def FaultCause (p : Params) (s : State) (a w : Word) : Fault → Prop
  | .illegalEncoding w' => w' = w ∧ p.strictFixedBits = true ∧ StrictMismatch w
  | .reservedOpcode op => p.reservedPolicy = .fault ∧ (decode w).opcode = reservedTag op
  | .unknownTrap v => p.unknownTrapPolicy = .fault ∧ decode w = .trap v ∧ (v.toNat < 0x20 ∨ 0x25 < v.toNat)
  | .unterminatedString => (decode w = .trap 0x22 ∨ decode w = .trap 0x24) ∧
      ∃ ws s', WordsRead s a ws s' ∧ ws.length = 65536

theorem FaultCause.of_stopStatus {s : State} {w : Word} {o : CoreOutcome} {reason : Fault}
    (hcause : OutcomeCause (decode w) s o) (hstop : stopStatus s.params o = some (.faulted reason)) :
    FaultCause s.params s (s.reg 0) w reason := by
  cases o with
  | completed | halt => cases hstop
  | reserved op =>
    cases hp : s.params.reservedPolicy <;> rw [stopStatus, hp] at hstop <;> cases hstop
    exact ⟨hp, hcause⟩
  | unknownTrap v =>
    cases hp : s.params.unknownTrapPolicy <;> rw [stopStatus, hp] at hstop <;> cases hstop
    exact ⟨hp, hcause⟩
  | fault reason' =>
    obtain ⟨rfl, hstring⟩ := hcause
    cases hstop
    exact hstring

theorem StepEnd.faultCause {s t : State} {w : Word} (h : StepEnd s w t) (hrun : s.run = .running) {reason : Fault}
    (hfaulted : t.run = .faulted reason) : FaultCause s.params s (s.reg 0) w reason := by
  cases h with
  | rejected hstrict hmismatch =>
    cases hfaulted
    exact ⟨rfl, hstrict, hmismatch⟩
  | ran hok hend =>
    obtain ⟨o, ho, hcause, hsame⟩ | ⟨svc, bytes, hi, -, rfl⟩ := hend.outcome
    · rw [State.react_run ho, hsame, hrun, hend.extends.params] at hfaulted
      refine .of_stopStatus hcause ?_
      cases hstop : stopStatus s.params o with
      | none => rw [hstop] at hfaulted; cases hfaulted
      | some r => rw [hstop] at hfaulted; exact congrArg some hfaulted
    · cases hfaulted

/-- Settles O56: by the outcome the fetch loop stopped on, and the cause of that outcome. -/
theorem faultCauses : Obligations.FaultCauses := by
  intro s s1 t w reason hrun hread hstep hfaulted
  have hend := step_running_end hrun hread hstep
  have hcause := hend.faultCause (hread.run.trans hrun) hfaulted
  rwa [State.setPc_params, hread.same.1, State.setPc_reg, hread.reg] at hcause

/-! ### The wait for input -/

/-- Settles O40: the two waits after the link write, the step of a held machine without a character, and the service
that one with a character ends. -/
theorem inputHoldsUntilCharacter : Obligations.InputHoldsUntilCharacter := by
  refine ⟨fun s hin => ?_, fun s svc hheld hin => ?_, fun s svc c rest hheld hin => ?_⟩
  · have hlinked : s.saveLink.consoleIn = [] := s.saveLink_consoleIn.trans hin
    have hprompted : (s.saveLink.emit s.params.inPrompt).consoleIn = [] := hlinked
    rw [exec_trap_getc, exec_trap_in, State.awaitInput_nil hlinked, State.awaitInput_nil hprompted]
    exact ⟨rfl, rfl⟩
  · refine run_core_of_step_self ?_
    rw [step_held hheld, State.resume_nil hin]
  · refine ⟨_, (step_held hheld).trans (congrArg _ (State.resume_cons hin svc)), ?_⟩
    refine ⟨?_, rfl, rfl, rfl, rfl, ?_, rfl, rfl, ?_, rfl, rfl, fun _ => rfl, rfl, rfl⟩
    · rw [State.finishInput_reg, if_pos rfl]
    · exact State.finishInput_output _ _ _
    · intro r hr
      exact (State.finishInput_reg _ svc c r).trans (if_neg (List.ne_of_not_mem_cons hr))

end Sys2Proof.Machine
end

section
/-! Memory (spec/20_memory.md): the port of R45, the one canonical list of a memory, and a word stored over the next
instruction (R51). -/

namespace Sys2Proof.Machine

/-! ### The memory port -/

theorem Params.default_inDevice_iff (a : Word) : Params.default.inDevice a = true ↔ 0xFE00 ≤ a.toNat := by
  have h := a.isLt
  simp [Params.inDevice, Params.default, BitVec.le_def]
  omega

/-- Settles O43: reads and writes outside the device region by the laws of canonical memory, and inside it by the two
kinds of draw. -/
theorem memoryPort : Obligations.MemoryPort := by
  refine ⟨fun s a b v hmem ha hb => ⟨State.memRead_plain hb, ?_, ?_⟩,
    fun s a v ha => ⟨State.memWrite_device ha v, fun rest hin => ?_, fun hin => ?_⟩,
    Params.default_inDevice_iff, rfl, rfl⟩
  · rw [State.memRead_plain (by rwa [State.memWrite_params]), State.memWrite_plain ha, Mem.read_write hmem]
  · rw [State.memWrite_plain ha]
  · exact State.memRead_of_gives (.inr (.inl ⟨ha, rest, hin, rfl⟩))
  · exact State.memRead_of_gives (.inr (.inr ⟨ha, hin, rfl, rfl⟩))

/-! ### Canonical memories -/

/-- The first index of a canonical memory is the least one that reads as something. -/
theorem Mem.head_le_of_lookup_eq {k k' : Nat} {v v' : Word} {m m' : Mem} {lo lo' : Nat}
    (hm : Mem.wfFrom lo ((k, v) :: m) = true) (hm' : Mem.wfFrom lo' ((k', v') :: m') = true)
    (heq : ∀ a < 65536, Mem.lookup ((k, v) :: m) a = Mem.lookup ((k', v') :: m') a) : k' ≤ k := by
  obtain ⟨-, hk, hv, -⟩ := (Mem.wfFrom_cons_cell ..).1 hm
  obtain ⟨-, hk', hv', hrest'⟩ := (Mem.wfFrom_cons_cell ..).1 hm'
  by_contra hlt
  have hbelow : Mem.lookup ((k', v') :: m') k = Mem.unlisted :=
    Mem.lookup_below (not_le.1 hlt) ((Mem.wfFrom_cons_cell ..).2 ⟨le_rfl, hk', hv', hrest'⟩)
  rw [← heq k hk, Mem.lookup_cons_cell, if_pos rfl] at hbelow
  exact hv hbelow

theorem Mem.not_unlisted_of_cons {k lo : Nat} {v : Word} {m : Mem} (hm : Mem.wfFrom lo ((k, v) :: m) = true)
    (heq : ∀ a < 65536, Mem.lookup ((k, v) :: m) a = Mem.unlisted) : False := by
  obtain ⟨-, hk, hv, -⟩ := (Mem.wfFrom_cons_cell ..).1 hm
  have hread := heq k hk
  rw [Mem.lookup_cons_cell, if_pos rfl] at hread
  exact hv hread

theorem Mem.eq_of_lookup_eq {m m' : Mem} {lo : Nat} (hm : Mem.wfFrom lo m = true) (hm' : Mem.wfFrom lo m' = true)
    (heq : ∀ a < 65536, Mem.lookup m a = Mem.lookup m' a) : m = m' := by
  induction m generalizing m' lo with
  | nil =>
    cases m' with
    | nil => rfl
    | cons c m' => exact (Mem.not_unlisted_of_cons hm' fun a ha => (heq a ha).symm).elim
  | cons c m ih =>
    cases m' with
    | nil => exact (Mem.not_unlisted_of_cons hm heq).elim
    | cons c' m' =>
      obtain ⟨k, v⟩ := c
      obtain ⟨k', v'⟩ := c'
      obtain rfl : k = k' := le_antisymm (Mem.head_le_of_lookup_eq hm' hm fun a ha => (heq a ha).symm)
        (Mem.head_le_of_lookup_eq hm hm' heq)
      obtain ⟨-, hk, -, hrest⟩ := (Mem.wfFrom_cons_cell ..).1 hm
      obtain ⟨-, -, -, hrest'⟩ := (Mem.wfFrom_cons_cell ..).1 hm'
      have hv := heq k hk
      rw [Mem.lookup_cons_cell, Mem.lookup_cons_cell, if_pos rfl, if_pos rfl] at hv
      have hrests : ∀ a < 65536, Mem.lookup m a = Mem.lookup m' a := by
        intro a ha
        obtain hlt | hle := Nat.lt_or_ge k a
        · have hcell := heq a ha
          rwa [Mem.lookup_cons_cell, Mem.lookup_cons_cell, if_neg (by omega), if_neg (by omega)] at hcell
        · rw [Mem.lookup_below (Nat.lt_succ_of_le hle) hrest, Mem.lookup_below (Nat.lt_succ_of_le hle) hrest']
      rw [hv, ih hrest hrest' hrests]

/-- Settles O48: the two lists agree cell by cell from the first index on. -/
theorem canonicalMemoriesEqual : Obligations.CanonicalMemoriesEqual := by
  intro m m' hm hm' hread
  refine Mem.eq_of_lookup_eq hm hm' fun a ha => ?_
  have hcell := hread (BitVec.ofNat 16 a)
  rwa [Mem.read, Mem.read, BitVec.toNat_ofNat, Nat.mod_eq_of_lt ha] at hcell

/-! ### A stored word as the next instruction -/

theorem decodeChecked_encode_st (strict : Bool) (sr : Reg) :
    decodeChecked strict (encode (.st sr 0)) = .ok (.st sr 0) := by
  have hdecode : decode (encode (.st sr 0)) = .st sr 0 := decodeEncodeRoundTrip _ rfl
  have hfixed : ¬ StrictMismatch (encode (.st sr 0)) := by
    rw [← fixedBitsDiffer_iff, fixedBitsDiffer, hdecode]
    exact Bool.false_ne_true
  exact decodeChecked_eq_ok_iff.2 ⟨fun hrej => hfixed hrej.2, hdecode.symm⟩

/-- Settles O44: the store is to the cell at the incremented PC, where the next fetch reads. -/
theorem storedWordRunsNext : Obligations.StoredWordRunsNext := by
  intro s sr hinv hrun hpc hnext hword
  have hstored := StoredAt.storeTo (s := s.setPc (s.pc + 1)) hinv.memCanonical (s.pc + 1) (s.reg sr)
  generalize ht : (s.setPc (s.pc + 1)).storeTo (s.pc + 1) (s.reg sr) = t at hstored
  have hexec : exec (.st sr 0) (s.setPc (s.pc + 1)) = .next t := by
    have hoff : s.pc + 1 + 0 = s.pc + 1 := BitVec.add_zero _
    rw [exec_st, State.setPc_pc, hoff, ← ht]
    rfl
  have hread : ReadGives s s.pc (encode (.st sr 0)) s := .inl ⟨hpc, hword.symm, rfl⟩
  have hstep := (stepRunsDecodedInstruction s s _ _ hrun hread (decodeChecked_encode_st _ sr)).2 t hexec
  rw [State.react_of_completed hstored.outcome] at hstep
  have hrun1 : t.run = .running := hstored.run.trans hrun
  have hread1 : ReadGives t t.pc (s.reg sr) t := by
    rw [hstored.pc]
    exact .inl ⟨hstored.params ▸ hnext, (hstored.written hnext).1.symm, rfl⟩
  refine ⟨t, hstep, hrun1, hstored.pc, ?_⟩
  rw [step_running hrun1, State.fetch_of_gives hread1, hstored.pc]
  rfl

end Sys2Proof.Machine
end

section
/-! What the instructions do not depend on (spec/10_state.md R27, spec/20_memory.md R41): an operation that does not
read a part of the state commutes with a change of that part, and so does every handler made of such operations. -/

namespace Sys2Proof.Machine

/-! ### COND -/

/-- The state with the COND of `u`. -/
def State.withCond (s u : State) : State := { s with cond := u.cond }

theorem AgreeButCond.eq_withCond {s s' : State} (h : AgreeButCond s s') : s' = s.withCond s' := by
  obtain ⟨hregs, hpc, hmem, hrun, hout, hconsole, houtput, hdevice, hdraws, hparams⟩ := h
  rw [State.withCond, ← hregs, ← hpc, ← hmem, ← hrun, ← hout, ← hconsole, ← houtput, ← hdevice, ← hdraws,
    ← hparams]

theorem AgreeButCond.withCond (s u : State) : AgreeButCond s (s.withCond u) :=
  ⟨rfl, rfl, rfl, rfl, rfl, rfl, rfl, rfl, rfl, rfl⟩

theorem State.memRead_withCond (s u : State) (a : Word) :
    (s.withCond u).memRead a = ((s.memRead a).1, (s.memRead a).2.withCond u) := by
  have hread := (s.memRead_gives a).congr (u := s.withCond u) rfl rfl rfl rfl
  rw [State.memRead_of_gives hread, s.memRead_eq_withDraws a]
  rfl

theorem State.memWrite_withCond (s u : State) (a v : Word) :
    (s.withCond u).memWrite a v = (s.memWrite a v).withCond u := by
  cases hdev : s.params.inDevice a with
  | true => rw [State.memWrite_device hdev, State.memWrite_device (s := s.withCond u) hdev]; rfl
  | false => rw [State.memWrite_plain hdev, State.memWrite_plain (s := s.withCond u) hdev]; rfl

theorem State.loadFrom_withCond (s u : State) (dr : Reg) (ea : Word) :
    (s.withCond u).loadFrom dr ea = s.loadFrom dr ea := by
  rw [State.loadFrom, State.memRead_withCond]
  rfl

theorem State.storeTo_withCond (s u : State) (ea v : Word) :
    (s.withCond u).storeTo ea v = (s.storeTo ea v).withCond u := by
  rw [State.storeTo, State.memWrite_withCond]
  rfl

theorem State.saveLink_withCond (s u : State) : (s.withCond u).saveLink = s.saveLink.withCond u := by
  rw [State.saveLink, State.saveLink, apply_ite (State.withCond · u)]
  rfl

theorem State.awaitInput_withCond (s u : State) (svc : InputService) :
    (s.withCond u).awaitInput svc = (s.awaitInput svc).withCond u := by
  cases hin : s.consoleIn with
  | nil => rw [State.awaitInput_nil hin, State.awaitInput_nil (s := s.withCond u) hin]; rfl
  | cons c rest => rw [State.awaitInput_cons hin, State.awaitInput_cons (s := s.withCond u) hin]; rfl

theorem State.stringLoop_withCond (bytes : Word → List Byte) (u : State) (n : Nat) (a : Word) (s : State) :
    State.stringLoop bytes n a (s.withCond u) = (State.stringLoop bytes n a s).withCond u := by
  induction n generalizing a s with
  | zero => rfl
  | succ n ih =>
    rw [State.stringLoop_succ, State.stringLoop_succ, State.memRead_withCond]
    split
    · rfl
    · exact ih (a + 1) ((s.memRead a).2.emit (bytes (s.memRead a).1))

theorem State.trapService_withCond (s u : State) (v : Byte) :
    (s.withCond u).trapService v = (s.trapService v).withCond u := by
  unfold State.trapService
  split_ifs
  · exact s.awaitInput_withCond u .getc
  · rfl
  · exact State.stringLoop_withCond putsBytes u 65536 (s.reg 0) s
  · exact (s.emit s.params.inPrompt).awaitInput_withCond u .input
  · exact State.stringLoop_withCond putspBytes u 65536 (s.reg 0) s
  · rfl
  · rfl

/-- A flag-setting instruction overwrites COND, and the others but BR carry it along. -/
theorem exec_withCond {i : Instr} (hop : i.opcode ≠ .br) (s u : State) :
    ∃ t t', exec i s = .next t ∧ exec i (s.withCond u) = .next t' ∧
      (t' = t ∨ (flagDest i = none ∧ t' = t.withCond u)) := by
  cases i with
  | addR | addI | andR | andI | notR | lea => exact ⟨_, _, rfl, rfl, .inl rfl⟩
  | ld | ldr => exact ⟨_, _, rfl, rfl, .inl (s.loadFrom_withCond u _ _)⟩
  | ldi dr off =>
    refine ⟨_, _, exec_ldi dr off s, exec_ldi dr off _, .inl ?_⟩
    rw [State.memRead_withCond]
    exact State.loadFrom_withCond _ u dr _
  | br => exact absurd rfl hop
  | jmp | jsr | rti | res => exact ⟨_, _, rfl, rfl, .inr ⟨rfl, rfl⟩⟩
  | jsrr base => exact ⟨_, _, exec_jsrr base s, exec_jsrr base _, .inr ⟨rfl, rfl⟩⟩
  | st | str => exact ⟨_, _, rfl, rfl, .inr ⟨rfl, s.storeTo_withCond u _ _⟩⟩
  | sti sr off =>
    refine ⟨_, _, exec_sti sr off s, exec_sti sr off _, .inr ⟨rfl, ?_⟩⟩
    rw [State.memRead_withCond]
    exact State.storeTo_withCond _ u _ _
  | trap v =>
    refine ⟨_, _, rfl, rfl, .inr ⟨rfl, ?_⟩⟩
    rw [State.saveLink_withCond]
    exact s.saveLink.trapService_withCond u v

/-- Settles O50: the second state is the first with another COND. -/
theorem onlyBrReadsCond : Obligations.OnlyBrReadsCond := by
  intro i s s' hop hagree
  obtain ⟨t, t', hexec, hexec', hsame⟩ := exec_withCond hop s s'
  rw [← hagree.eq_withCond] at hexec'
  refine ⟨t, t', hexec, hexec', ?_⟩
  obtain rfl | ⟨hnone, rfl⟩ := hsame
  · exact ⟨.withCond t' t', fun _ => rfl⟩
  · exact ⟨.withCond t s', fun hsome => by rw [hnone] at hsome; cases hsome⟩

/-! ### Memory and the answers of the device region -/

/-- The state with the memory and the answers of device-region reads of `u`. -/
def State.withMemory (s u : State) : State :=
  { s with mem := u.mem, deviceIn := u.deviceIn, drawCount := u.drawCount }

theorem AgreeButMemory.eq_withMemory {s s' : State} (h : AgreeButMemory s s') : s' = s.withMemory s' := by
  obtain ⟨hregs, hpc, hcond, hrun, hout, hconsole, houtput, hparams⟩ := h
  rw [State.withMemory, ← hregs, ← hpc, ← hcond, ← hrun, ← hout, ← hconsole, ← houtput, ← hparams]

theorem AgreeButMemory.withMemory (s u : State) : AgreeButMemory s (s.withMemory u) :=
  ⟨rfl, rfl, rfl, rfl, rfl, rfl, rfl, rfl⟩

theorem State.saveLink_withMemory (s u : State) : (s.withMemory u).saveLink = s.saveLink.withMemory u := by
  rw [State.saveLink, State.saveLink, apply_ite (State.withMemory · u)]
  rfl

theorem State.awaitInput_withMemory (s u : State) (svc : InputService) :
    (s.withMemory u).awaitInput svc = (s.awaitInput svc).withMemory u := by
  cases hin : s.consoleIn with
  | nil => rw [State.awaitInput_nil hin, State.awaitInput_nil (s := s.withMemory u) hin]; rfl
  | cons c rest => rw [State.awaitInput_cons hin, State.awaitInput_cons (s := s.withMemory u) hin]; rfl

theorem State.trapService_withMemory {v : Byte} (hv : accessesMemory (.trap v) = false) (s u : State) :
    (s.withMemory u).trapService v = (s.trapService v).withMemory u := by
  obtain ⟨hputs, hputsp⟩ : v ≠ 0x22 ∧ v ≠ 0x24 := by simpa [accessesMemory] using hv
  unfold State.trapService
  split_ifs
  · exact s.awaitInput_withMemory u .getc
  · rfl
  · exact (s.emit s.params.inPrompt).awaitInput_withMemory u .input
  · rfl
  · rfl

theorem exec_withMemory {i : Instr} (hi : accessesMemory i = false) (s : State) :
    ∃ t, exec i s = .next t ∧ ∀ u, exec i (s.withMemory u) = .next (t.withMemory u) := by
  cases i with
  | addR | addI | andR | andI | notR | lea | jmp | jsr | rti | res => exact ⟨_, rfl, fun _ => rfl⟩
  | br n z p off => exact ⟨_, exec_br n z p off s, fun u => exec_br n z p off (s.withMemory u)⟩
  | jsrr base => exact ⟨_, exec_jsrr base s, fun u => exec_jsrr base (s.withMemory u)⟩
  | ld | ldi | ldr | st | sti | str => cases hi
  | trap v =>
    refine ⟨_, rfl, fun u => congrArg Host.Outcome.next ?_⟩
    rw [State.saveLink_withMemory]
    exact State.trapService_withMemory hi s.saveLink u

/-- Settles O53: the second state is the first with another memory; taken with its own memory, each state shows that
the memory is left as it is. -/
theorem othersDoNotAccessMemory : Obligations.OthersDoNotAccessMemory := by
  intro i s s' hi hagree
  obtain ⟨t, hexec, hwith⟩ := exec_withMemory hi s
  have hsame : t = t.withMemory s := Host.Outcome.next.inj (hexec.symm.trans (hwith s))
  refine ⟨t, t.withMemory s', hexec, ?_, .withMemory t s', ?_, rfl, rfl, rfl⟩
  · rw [hagree.eq_withMemory]
    exact hwith s'
  · rw [hsame]
    exact ⟨rfl, rfl, rfl⟩

end Sys2Proof.Machine
end
